-- ==== Sys2Proof/Word.lean ====
section
/-! DEFINITION. The words of the hardware: bytes, 16-bit words, the fields of an instruction word (R6, R7, R71). Every value is
unsigned (R7). -/

namespace Sys2Proof

/-- A byte: a general register, a timer, a memory cell, the field `kk` (R5). -/
abbrev Byte := BitVec 8

/-- A 16-bit word: an instruction word, `I`, `PC`, a call-stack entry (R5, R70). -/
abbrev Word := BitVec 16

/-- A 12-bit absolute address or immediate, the field `nnn` (R71, R73). -/
abbrev Addr12 := BitVec 12

/-- Four bits of an instruction word that select nothing and are used by nothing: a don't-care field (R79). -/
abbrev Nibble := BitVec 4

/-- The name of a general register, V0 to VF (R21). Every value of a 4-bit field names one. -/
abbrev RegIdx := Fin 16

/-- The height of a sprite in rows, 0 to 15 (R73, R192). -/
abbrev Height := Fin 16

/-- VF, the flag register (R11, R22). -/
abbrev VF : RegIdx := 15

end Sys2Proof
end

