-- ==== Sys2Proof/Config.lean ====
section
/-! DEFINITION. What the hardware takes as a parameter (R5) and the one value the spec leaves free (R35). -/

namespace Sys2Proof

/-- The conventional font: 16 glyphs of 5 bytes, the glyph of digit d at 5d to 5d+4, top row first (R272, D5). -/
def conventionalFont : List Byte :=
  [0xF0, 0x90, 0x90, 0x90, 0xF0,  0x20, 0x60, 0x20, 0x20, 0x70] ++
  [0xF0, 0x10, 0xF0, 0x80, 0xF0,  0xF0, 0x10, 0xF0, 0x10, 0xF0] ++
  [0x90, 0x90, 0xF0, 0x10, 0x10,  0xF0, 0x80, 0xF0, 0x10, 0xF0] ++
  [0xF0, 0x80, 0xF0, 0x90, 0xF0,  0xF0, 0x10, 0x20, 0x40, 0x40] ++
  [0xF0, 0x90, 0xF0, 0x90, 0xF0,  0xF0, 0x90, 0xF0, 0x10, 0xF0] ++
  [0xF0, 0x90, 0xF0, 0x90, 0x90,  0xE0, 0x90, 0xE0, 0x90, 0xE0] ++
  [0xF0, 0x80, 0x80, 0x80, 0xF0,  0xE0, 0x90, 0x90, 0x90, 0xE0] ++
  [0xF0, 0x80, 0xF0, 0x80, 0xF0,  0xF0, 0x80, 0xF0, 0x80, 0x80]

/-- The parameters of R5 that are not fixed by the width of a type, each with the spec's default. -/
structure Config where
  /-- `MEM_SIZE`: bytes of the memory image (R5, D2). -/
  memSize : Nat := 4096
  /-- `WIDTH`: framebuffer columns (R5, D3). -/
  width : Nat := 64
  /-- `HEIGHT`: framebuffer rows (R5, D3). -/
  height : Nat := 32
  /-- `PROG_BASE`: where the program image is copied and where execution starts (R5, D8). -/
  progBase : Nat := 0x200
  /-- `FONT_BASE`: the first address of the font table (R5, D4). -/
  fontBase : Nat := 0
  /-- `GLYPH_BYTES`: bytes of one glyph (R5, D4). -/
  glyphBytes : Nat := 5
  /-- `FONT`: the contents of the font table (R5, R272, D5). -/
  font : List Byte := conventionalFont
  /-- `STRICT_DECODE`: whether a non-zero don't-care field is an invalid word (R5, R79, D12). -/
  strictDecode : Bool := false
deriving DecidableEq, Repr

/-- The constraints of R5 that a configuration must meet. -/
def Config.valid (c : Config) : Bool :=
  decide (c.progBase + 2 ≤ c.memSize ∧ c.memSize ≤ 65536 ∧ 8 ≤ c.width ∧ 15 ≤ c.height ∧
    c.font.length = 16 * c.glyphBytes ∧ c.font.length ≤ c.progBase)

/-- The configuration of the machine modelled: every parameter at its default (R5; log entries 2 to 6). -/
abbrev Config.machine : Config := {}

/-- `MEM_SIZE` of the machine modelled. -/
abbrev memSize : Nat := Config.machine.memSize

/-- `WIDTH` of the machine modelled. -/
abbrev width : Nat := Config.machine.width

/-- `HEIGHT` of the machine modelled. -/
abbrev height : Nat := Config.machine.height

/-- The random byte `RND` presented for the n-th draw (R35, R151, D25): a FREE VALUE. It has no value anything in Lean can
compute or prove, and nothing says that two draws differ or agree. UNVERIFIED (D25), log entry 13: safe. -/
opaque Config.randomByte : Nat → Byte

end Sys2Proof
end

