-- ==== Sys2Proof/Syntax.lean ====
section
/-! DEFINITION. The instructions: one constructor per row of spec/opcode_table.json (R76, R83). A constructor carries every field the
table gives its row, a don't-care field (R79) included, because a fatal condition records the whole instruction word (R236). -/

namespace Sys2Proof

/-- The 34 instructions of R76, in the order of the opcode table. -/
inductive Instr where
  | cls (x : Nibble)                              -- 00E0: CLS
  | ret (x : Nibble)                              -- 00EE: RET
  | jp (nnn : Addr12)                             -- 1nnn: JP nnn
  | call (nnn : Addr12)                           -- 2nnn: CALL nnn
  | seVxKk (x : RegIdx) (kk : Byte)               -- 3xkk: SE Vx, kk
  | sneVxKk (x : RegIdx) (kk : Byte)              -- 4xkk: SNE Vx, kk
  | seVxVy (x y : RegIdx) (n : Nibble)            -- 5xyn: SE Vx, Vy
  | ldVxKk (x : RegIdx) (kk : Byte)               -- 6xkk: LD Vx, kk
  | addVxKk (x : RegIdx) (kk : Byte)              -- 7xkk: ADD Vx, kk
  | ldVxVy (x y : RegIdx)                         -- 8xy0: LD Vx, Vy
  | or (x y : RegIdx)                             -- 8xy1: OR Vx, Vy
  | and (x y : RegIdx)                            -- 8xy2: AND Vx, Vy
  | xor (x y : RegIdx)                            -- 8xy3: XOR Vx, Vy
  | addVxVy (x y : RegIdx)                        -- 8xy4: ADD Vx, Vy
  | sub (x y : RegIdx)                            -- 8xy5: SUB Vx, Vy
  | shr (x : RegIdx) (y : Nibble)                 -- 8xy6: SHR Vx
  | subn (x y : RegIdx)                           -- 8xy7: SUBN Vx, Vy
  | shl (x : RegIdx) (y : Nibble)                 -- 8xyE: SHL Vx
  | sneVxVy (x y : RegIdx) (n : Nibble)           -- 9xyn: SNE Vx, Vy
  | ldI (nnn : Addr12)                            -- Annn: LD I, nnn
  | jpV0 (nnn : Addr12)                           -- Bnnn: JP V0, nnn
  | rnd (x : RegIdx) (kk : Byte)                  -- Cxkk: RND Vx, kk
  | drw (x y : RegIdx) (n : Height)               -- Dxyn: DRW Vx, Vy, n
  | skp (x : RegIdx)                              -- Ex9E: SKP Vx
  | sknp (x : RegIdx)                             -- ExA1: SKNP Vx
  | ldVxDt (x : RegIdx)                           -- Fx07: LD Vx, DT
  | ldVxK (x : RegIdx)                            -- Fx0A: LD Vx, K
  | ldDtVx (x : RegIdx)                           -- Fx15: LD DT, Vx
  | ldStVx (x : RegIdx)                           -- Fx18: LD ST, Vx
  | addIVx (x : RegIdx)                           -- Fx1E: ADD I, Vx
  | ldFVx (x : RegIdx)                            -- Fx29: LD F, Vx
  | ldBVx (x : RegIdx)                            -- Fx33: LD B, Vx
  | ldMemVx (x : RegIdx)                          -- Fx55: LD [I], Vx
  | ldVxMem (x : RegIdx)                          -- Fx65: LD Vx, [I]
deriving DecidableEq, Repr

end Sys2Proof
end

