-- ==== Sys2Proof/WellFormed.lean ====
section
/-! DEFINITION. Which instructions are well formed. The fields' types leave only the don't-care fields of R79 to check: under
`STRICT_DECODE` four of them must be zero; in the canonical encoding all six are. -/

namespace Sys2Proof

/-- Every don't-care field that `STRICT_DECODE` examines is zero: `x` of CLS and RET, `n` of SE and SNE (R79). The `y` field of the
shifts stays a don't-care even then. -/
def Instr.strictlyFormed : Instr → Bool
  | .cls x | .ret x => x == 0
  | .seVxVy _ _ n | .sneVxVy _ _ n => n == 0
  | .jp _ | .call _ | .seVxKk _ _ | .sneVxKk _ _ | .ldVxKk _ _ | .addVxKk _ _ | .ldVxVy _ _ | .or _ _ | .and _ _ | .xor _ _
  | .addVxVy _ _ | .sub _ _ | .shr _ _ | .subn _ _ | .shl _ _ | .ldI _ | .jpV0 _ | .rnd _ _ | .drw _ _ _ | .skp _ | .sknp _
  | .ldVxDt _ | .ldVxK _ | .ldDtVx _ | .ldStVx _ | .addIVx _ | .ldFVx _ | .ldBVx _ | .ldMemVx _ | .ldVxMem _ => true

/-- The canonical encoding, the one an assembler emits: every don't-care field zero, the shifts' `y` included (R79). -/
def Instr.canonical : Instr → Bool
  | .shr _ y | .shl _ y => y == 0
  | i => i.strictlyFormed

/-- Well formed under a setting of `STRICT_DECODE` (R79). -/
def Instr.wellFormedWith (strict : Bool) (i : Instr) : Bool :=
  !strict || i.strictlyFormed

/-- Well formed on the machine modelled, whose `STRICT_DECODE` is false: every instruction is (R5, R79). -/
def Instr.wellFormed (i : Instr) : Bool :=
  i.wellFormedWith Config.machine.strictDecode

end Sys2Proof
end

