-- ==== Sys2Proof/Decode.lean ====
section
/-! DEFINITION. From bytes to an instruction and back: the six fields (R71), the two-level dispatch (R74, R75, R104), the invalid words
(R78), the don't-care fields (R79), the opcode map as a table (R76), and the encoder. -/

namespace Sys2Proof

/-- Why bytes are no instruction. -/
inductive DecodeError where
  /-- fewer than the two bytes of an instruction word (R70) -/
  | truncated
  /-- the word matches no row of R76, or has a non-zero don't-care field under `STRICT_DECODE` (R78, R79) -/
  | invalidOpcode (w : Word)
deriving DecidableEq, Repr

/-! ### The fields (R71) -/

/-- `op`, bits 15 to 12 (R71). -/
def opField (w : Word) : Nibble := w.extractLsb' 12 4

/-- `x`, bits 11 to 8, as raw bits (R71). -/
def xBits (w : Word) : Nibble := w.extractLsb' 8 4

/-- `y`, bits 7 to 4, as raw bits (R71). -/
def yBits (w : Word) : Nibble := w.extractLsb' 4 4

/-- `n`, bits 3 to 0, as raw bits (R71). -/
def nBits (w : Word) : Nibble := w.extractLsb' 0 4

/-- `kk`, bits 7 to 0 (R71). -/
def kkField (w : Word) : Byte := w.extractLsb' 0 8

/-- `nnn`, bits 11 to 0 (R71). -/
def nnnField (w : Word) : Addr12 := w.extractLsb' 0 12

/-- `x` as the register it names (R71, R73). -/
def xReg (w : Word) : RegIdx := (xBits w).toFin

/-- `y` as the register it names (R71, R73). -/
def yReg (w : Word) : RegIdx := (yBits w).toFin

/-- `n` as a sprite height (R71, R73). -/
def nHeight (w : Word) : Height := (nBits w).toFin

/-! ### Dispatch (R104) -/

/-- Secondary selection of `op` 0x0, on the low byte (R75, D12). -/
def decode0 (w : Word) : Option Instr :=
  match kkField w with
  | 0xE0#8 => some (.cls (xBits w))
  | 0xEE#8 => some (.ret (xBits w))
  | _ => none

/-- Secondary selection of `op` 0x8, on the low nibble (R75). -/
def decode8 (w : Word) : Option Instr :=
  match nBits w with
  | 0x0#4 => some (.ldVxVy (xReg w) (yReg w))
  | 0x1#4 => some (.or (xReg w) (yReg w))
  | 0x2#4 => some (.and (xReg w) (yReg w))
  | 0x3#4 => some (.xor (xReg w) (yReg w))
  | 0x4#4 => some (.addVxVy (xReg w) (yReg w))
  | 0x5#4 => some (.sub (xReg w) (yReg w))
  | 0x6#4 => some (.shr (xReg w) (yBits w))
  | 0x7#4 => some (.subn (xReg w) (yReg w))
  | 0xE#4 => some (.shl (xReg w) (yBits w))
  | _ => none

/-- Secondary selection of `op` 0xE, on the low byte (R75). -/
def decodeE (w : Word) : Option Instr :=
  match kkField w with
  | 0x9E#8 => some (.skp (xReg w))
  | 0xA1#8 => some (.sknp (xReg w))
  | _ => none

/-- Secondary selection of `op` 0xF, on the low byte (R75). -/
def decodeF (w : Word) : Option Instr :=
  match kkField w with
  | 0x07#8 => some (.ldVxDt (xReg w))
  | 0x0A#8 => some (.ldVxK (xReg w))
  | 0x15#8 => some (.ldDtVx (xReg w))
  | 0x18#8 => some (.ldStVx (xReg w))
  | 0x1E#8 => some (.addIVx (xReg w))
  | 0x29#8 => some (.ldFVx (xReg w))
  | 0x33#8 => some (.ldBVx (xReg w))
  | 0x55#8 => some (.ldMemVx (xReg w))
  | 0x65#8 => some (.ldVxMem (xReg w))
  | _ => none

/-- Primary selection on `op` (R74), with the opcode numbers of R76 (the spec's decision D11; UNVERIFIED, log entry 1). -/
def select (w : Word) : Option Instr :=
  match opField w with
  | 0x0#4 => decode0 w
  | 0x1#4 => some (.jp (nnnField w))
  | 0x2#4 => some (.call (nnnField w))
  | 0x3#4 => some (.seVxKk (xReg w) (kkField w))
  | 0x4#4 => some (.sneVxKk (xReg w) (kkField w))
  | 0x5#4 => some (.seVxVy (xReg w) (yReg w) (nBits w))
  | 0x6#4 => some (.ldVxKk (xReg w) (kkField w))
  | 0x7#4 => some (.addVxKk (xReg w) (kkField w))
  | 0x8#4 => decode8 w
  | 0x9#4 => some (.sneVxVy (xReg w) (yReg w) (nBits w))
  | 0xA#4 => some (.ldI (nnnField w))
  | 0xB#4 => some (.jpV0 (nnnField w))
  | 0xC#4 => some (.rnd (xReg w) (kkField w))
  | 0xD#4 => some (.drw (xReg w) (yReg w) (nHeight w))
  | 0xE#4 => decodeE w
  | 0xF#4 => decodeF w
  | _ => none

/-- Decode one instruction word under a setting of `STRICT_DECODE` (R79, R81): total, and it reads nothing but the word. -/
def decodeWith (strict : Bool) (w : Word) : Except DecodeError Instr :=
  match select w with
  | some i => if i.wellFormedWith strict then .ok i else .error (.invalidOpcode w)
  | none => .error (.invalidOpcode w)

/-- Decode one instruction word on the machine modelled (R81, R104). -/
def decode (w : Word) : Except DecodeError Instr :=
  decodeWith Config.machine.strictDecode w

/-- The word of two bytes, the one at the lower address the more significant (R53, R70). -/
def wordOfBytes (b0 b1 : Byte) : Word := b0 ++ b1

/-- The two bytes of a word in the order memory holds them (R53). -/
def bytesOfWord (w : Word) : List Byte := [w.extractLsb' 8 8, w.extractLsb' 0 8]

/-- Decode the instruction at the head of a list of bytes, and the bytes after it (R53, R70). -/
def decodeBytes : List Byte → Except DecodeError (Instr × List Byte)
  | b0 :: b1 :: rest =>
    match decode (wordOfBytes b0 b1) with
    | .ok i => .ok (i, rest)
    | .error e => .error e
  | _ => .error .truncated

/-! ### The encoder -/

/-- Format `NNN` (R72). -/
def packNnn (op : Nat) (nnn : Addr12) : Word := BitVec.ofNat 16 (op * 4096 + nnn.toNat)

/-- Formats `XKK` and `X` (R72). -/
def packXkk (op x kk : Nat) : Word := BitVec.ofNat 16 (op * 4096 + x * 256 + kk)

/-- Formats `XYN` and `XY` (R72). -/
def packXyn (op x y n : Nat) : Word := BitVec.ofNat 16 (op * 4096 + x * 256 + y * 16 + n)

/-- The instruction word of an instruction: the pattern of its row of R76 with its fields filled in. -/
def encode : Instr → Word
  | .cls x => packXkk 0x0 x.toNat 0xE0
  | .ret x => packXkk 0x0 x.toNat 0xEE
  | .jp nnn => packNnn 0x1 nnn
  | .call nnn => packNnn 0x2 nnn
  | .seVxKk x kk => packXkk 0x3 x kk.toNat
  | .sneVxKk x kk => packXkk 0x4 x kk.toNat
  | .seVxVy x y n => packXyn 0x5 x y n.toNat
  | .ldVxKk x kk => packXkk 0x6 x kk.toNat
  | .addVxKk x kk => packXkk 0x7 x kk.toNat
  | .ldVxVy x y => packXyn 0x8 x y 0x0
  | .or x y => packXyn 0x8 x y 0x1
  | .and x y => packXyn 0x8 x y 0x2
  | .xor x y => packXyn 0x8 x y 0x3
  | .addVxVy x y => packXyn 0x8 x y 0x4
  | .sub x y => packXyn 0x8 x y 0x5
  | .shr x y => packXyn 0x8 x y.toNat 0x6
  | .subn x y => packXyn 0x8 x y 0x7
  | .shl x y => packXyn 0x8 x y.toNat 0xE
  | .sneVxVy x y n => packXyn 0x9 x y n.toNat
  | .ldI nnn => packNnn 0xA nnn
  | .jpV0 nnn => packNnn 0xB nnn
  | .rnd x kk => packXkk 0xC x kk.toNat
  | .drw x y n => packXyn 0xD x y n
  | .skp x => packXkk 0xE x 0x9E
  | .sknp x => packXkk 0xE x 0xA1
  | .ldVxDt x => packXkk 0xF x 0x07
  | .ldVxK x => packXkk 0xF x 0x0A
  | .ldDtVx x => packXkk 0xF x 0x15
  | .ldStVx x => packXkk 0xF x 0x18
  | .addIVx x => packXkk 0xF x 0x1E
  | .ldFVx x => packXkk 0xF x 0x29
  | .ldBVx x => packXkk 0xF x 0x33
  | .ldMemVx x => packXkk 0xF x 0x55
  | .ldVxMem x => packXkk 0xF x 0x65

/-! ### The opcode map as a table (R76) -/

/-- The identifier of an instruction in spec/opcode_table.json (R83). -/
def mnemonic : Instr → String
  | .cls _ => "CLS"
  | .ret _ => "RET"
  | .jp _ => "JP"
  | .call _ => "CALL"
  | .seVxKk _ _ => "SE_VX_KK"
  | .sneVxKk _ _ => "SNE_VX_KK"
  | .seVxVy _ _ _ => "SE_VX_VY"
  | .ldVxKk _ _ => "LD_VX_KK"
  | .addVxKk _ _ => "ADD_VX_KK"
  | .ldVxVy _ _ => "LD_VX_VY"
  | .or _ _ => "OR"
  | .and _ _ => "AND"
  | .xor _ _ => "XOR"
  | .addVxVy _ _ => "ADD_VX_VY"
  | .sub _ _ => "SUB"
  | .shr _ _ => "SHR"
  | .subn _ _ => "SUBN"
  | .shl _ _ => "SHL"
  | .sneVxVy _ _ _ => "SNE_VX_VY"
  | .ldI _ => "LD_I"
  | .jpV0 _ => "JP_V0"
  | .rnd _ _ => "RND"
  | .drw _ _ _ => "DRW"
  | .skp _ => "SKP"
  | .sknp _ => "SKNP"
  | .ldVxDt _ => "LD_VX_DT"
  | .ldVxK _ => "LD_VX_K"
  | .ldDtVx _ => "LD_DT_VX"
  | .ldStVx _ => "LD_ST_VX"
  | .addIVx _ => "ADD_I_VX"
  | .ldFVx _ => "LD_F_VX"
  | .ldBVx _ => "LD_B_VX"
  | .ldMemVx _ => "LD_MEM_VX"
  | .ldVxMem _ => "LD_VX_MEM"

/-- The table of R76: identifier, `match`, `mask`, one row per instruction. -/
def opcodeTable : List (String × Word × Word) :=
  [("CLS", 0x00E0, 0xF0FF), ("RET", 0x00EE, 0xF0FF), ("JP", 0x1000, 0xF000), ("CALL", 0x2000, 0xF000),
   ("SE_VX_KK", 0x3000, 0xF000), ("SNE_VX_KK", 0x4000, 0xF000), ("SE_VX_VY", 0x5000, 0xF000), ("LD_VX_KK", 0x6000, 0xF000)] ++
  [("ADD_VX_KK", 0x7000, 0xF000), ("LD_VX_VY", 0x8000, 0xF00F), ("OR", 0x8001, 0xF00F), ("AND", 0x8002, 0xF00F),
   ("XOR", 0x8003, 0xF00F), ("ADD_VX_VY", 0x8004, 0xF00F), ("SUB", 0x8005, 0xF00F), ("SHR", 0x8006, 0xF00F)] ++
  [("SUBN", 0x8007, 0xF00F), ("SHL", 0x800E, 0xF00F), ("SNE_VX_VY", 0x9000, 0xF000), ("LD_I", 0xA000, 0xF000),
   ("JP_V0", 0xB000, 0xF000), ("RND", 0xC000, 0xF000), ("DRW", 0xD000, 0xF000), ("SKP", 0xE09E, 0xF0FF)] ++
  [("SKNP", 0xE0A1, 0xF0FF), ("LD_VX_DT", 0xF007, 0xF0FF), ("LD_VX_K", 0xF00A, 0xF0FF), ("LD_DT_VX", 0xF015, 0xF0FF),
   ("LD_ST_VX", 0xF018, 0xF0FF), ("ADD_I_VX", 0xF01E, 0xF0FF), ("LD_F_VX", 0xF029, 0xF0FF), ("LD_B_VX", 0xF033, 0xF0FF)] ++
  [("LD_MEM_VX", 0xF055, 0xF0FF), ("LD_VX_MEM", 0xF065, 0xF0FF)]

/-! ### The host's numbering of an instruction's bits -/

/-- An instruction word given as a number of `nbits` bits, bit 0 its least significant bit; the bits above are 0. -/
def wordOfBits (nbits w : Nat) : Word := BitVec.ofNat 16 (w % 2 ^ nbits)

/-- What the decoder reads from the instruction whose bits are `w`, laid out as memory holds it. -/
def decodeTableWord (nbits w : Nat) : Option Instr :=
  match decodeBytes (bytesOfWord (wordOfBits nbits w)) with
  | .ok (i, _) => some i
  | .error _ => none

end Sys2Proof
end

