-- ==== Sys2Proof/Machine/State.lean ====
section
/-! DEFINITION. The state of the core, as R20 lists it, the input latch beside it, the reasons a step can stop, and the state after
reset (R270). All of it is plain data. -/

namespace Sys2Proof.Machine

/-- The memory image `MEM` (R50): the bytes that differ from the reset contents, addresses strictly rising. -/
abbrev Memory := List Host.Cell

/-- The framebuffer `FB` (R190): rows from the top, each a row of cells from the left, `true` for "on". -/
abbrev Grid := Vector (Vector Bool width) height

/-- A cell of the framebuffer: its row and its column (R190). -/
abbrev Pixel := Fin height × Fin width

/-- The 16 general registers (R21). -/
abbrev Regs := Vector Byte 16

/-- The input latch `KEY` (R33): `true` for "pressed". -/
abbrev Keys := Vector Bool 16

/-- The five fatal conditions (R230). -/
inductive FaultCode where
  /-- the word matches no row of the opcode map (R231) -/
  | invalidOpcode
  /-- `CALL` with 16 entries in use (R232) -/
  | stackOverflow
  /-- `RET` with no entry in use (R233) -/
  | stackUnderflow
  /-- an address at or above `MEM_SIZE` (R234) -/
  | addressFault
  /-- `SKP` or `SKNP` with `V[x] > 15` (R235) -/
  | keyIndexFault
deriving DecidableEq, Repr

/-- The record of a fatal condition in `FAULT` (R32, R236). -/
structure FaultRecord where
  /-- which condition (R230) -/
  code : FaultCode
  /-- `a_pc`, the address of the offending instruction (R236) -/
  pc   : Word
  /-- the instruction word, or 0 when the fetch itself faulted (R236) -/
  word : Word
  /-- the faulting address, the key index, or 0 (R32); at most 17 bits wide -/
  info : Nat
deriving DecidableEq, Repr

/-- The architectural state (R20), with the input latch and the model's own counter of random draws. -/
structure State where
  /-- `V[0..15]` (R21) -/
  v      : Regs
  /-- `I`, the index register (R23) -/
  index  : Word
  /-- `PC`: between steps, the address of the next instruction word (R24) -/
  pc     : Word
  /-- `SP`: the number of call-stack entries in use, 0 to 16 (R25) -/
  sp     : Fin 17
  /-- `STACK[0..15]`: return addresses (R26) -/
  stack  : Vector Word 16
  /-- `MEM` (R27, R50) -/
  mem    : Memory
  /-- `FB` (R28, R190) -/
  fb     : Grid
  /-- `DIRTY` (R29) -/
  dirty  : Bool
  /-- `DT`, the delay timer (R30) -/
  dt     : Byte
  /-- `ST`, the sound timer (R31) -/
  st     : Byte
  /-- `FAULT`: the fatal condition that stopped the core, if one did (R32) -/
  fault  : Option FaultRecord
  /-- `KEY[0..15]`: the input latch as the host last wrote it; the core never writes it (R33) -/
  keys   : Keys
  /-- THE MODEL'S OWN: how many random bytes have been drawn (R35; log entry 13) -/
  draws  : Nat
deriving DecidableEq, Repr

/-- Why `step` gives no next state. No instruction answers with it. -/
inductive Fault where
  /-- Raised by `step` alone, when `FAULT` is already set: the core is halted, the step's outcome is `Halted` and nothing changes (R106,
  R238). It carries the condition recorded. Safe: the hardware, too, does nothing until `Reset` (R271). DESIGN CHOICE, log entry 14. -/
  | halted (r : FaultRecord)
deriving DecidableEq, Repr

/-- Why the model gives something no meaning. -/
inductive Refusal where
  /-- Raised by an arm of `exec` whose instruction has no meaning yet. Safe: nothing is claimed of it. No arm is left. -/
  | notModelled (mnemonic : String)
  /-- Raised by the host operation `LoadImage` when the image of `len` bytes does not fit: it is refused whole and nothing is written
  (R273, D27). Safe. No instruction answers with it. -/
  | imageTooLong (len : Nat)
  /-- Raised by the host operation `LoadImage` anywhere but in the state `Reset` leaves, where alone it is defined (R274, U15). Safe. No
  instruction answers with it. -/
  | loadAfterStart
deriving DecidableEq, Repr

/-- The state after reset (R270). Nothing is unspecified after reset; `draws` is the model's own (log entry 13). -/
def State.reset : State where
  v      := Vector.replicate 16 0
  index  := 0
  pc     := BitVec.ofNat 16 Config.machine.progBase
  sp     := 0
  stack  := Vector.replicate 16 0
  mem    := []
  fb     := Vector.replicate height (Vector.replicate width false)
  dirty  := false
  dt     := 0
  st     := 0
  fault  := none
  keys   := Vector.replicate 16 false
  draws  := 0

end Sys2Proof.Machine
end

