-- ==== Sys2Proof/Machine/Ops.lean ====
section
/-! DEFINITION. The operations over registers, memory, the call stack and the framebuffer that the instructions share, and taking a
fatal condition (R236). -/

namespace Sys2Proof.Machine

/-- The answer of a step or of an instruction. -/
abbrev Answer := Host.Outcome State Fault Refusal

/-! ### General registers and the program counter -/

/-- `V[x]` (R8, R21). -/
def State.reg (s : State) (x : RegIdx) : Byte := s.v[x]

/-- `V[x] <- b` (R8, R21). None of the registers is hardwired. -/
def State.setReg (s : State) (x : RegIdx) (b : Byte) : State := { s with v := s.v.set x b }

/-- `I <- a` (R23). -/
def State.setIndex (s : State) (a : Word) : State := { s with index := a }

/-- `PC <- a` (R24). -/
def State.setPc (s : State) (a : Word) : State := { s with pc := a }

/-- Add 2 to `PC` modulo 65536: the advance of the fetch (R102), and once more for a skip (R127). -/
def State.advance (s : State) : State := s.setPc (s.pc + 2)

/-- The advance of the fetch, and a skip over one instruction word when the condition holds (R127). -/
def State.skipIf (s : State) (c : Bool) : State :=
  if c then s.advance.advance else s.advance

/-! ### The call stack -/

/-- `STACK[SP] <- a; SP <- SP + 1`; none when all 16 entries are in use (R25, R122). -/
def State.pushReturn (s : State) (a : Word) : Option State :=
  if h : s.sp.val < 16 then
    some { s with stack := s.stack.set s.sp.val a, sp := ⟨s.sp.val + 1, by omega⟩ }
  else none

/-- `SP <- SP - 1`, then the entry at the new `SP`, which is not cleared; none when no entry is in use (R25, R26, R120). -/
def State.popReturn (s : State) : Option (Word × State) :=
  if h : s.sp.val = 0 then none
  else some (s.stack[s.sp.val - 1]'(by omega), { s with sp := ⟨s.sp.val - 1, by omega⟩ })

/-! ### Memory -/

/-- What an address that is not listed reads as: the reset contents, the font from `FONT_BASE` and zero elsewhere (R270, R272). -/
def resetByte (a : Nat) : Byte :=
  if a < Config.machine.fontBase then 0 else Config.machine.font.getD (a - Config.machine.fontBase) 0

/-- The byte at an address (R8, R58). The bounds check stands apart, in `firstBad`, since it comes before every access (R56). -/
def Memory.read : Memory → Nat → Byte
  | [], a => resetByte a
  | (k, b) :: rest, a => if k = a then b else Memory.read rest a

/-- Put a cell in its place in a list of rising addresses. -/
def Memory.place (k : Nat) (b : Byte) : Memory → Memory
  | [] => [(k, b)]
  | (k', b') :: rest => if k < k' then (k, b) :: (k', b') :: rest else (k', b') :: Memory.place k b rest

/-- Store a byte at an address (R8, R58), keeping the canonical form: no entry for a byte that is the reset content. -/
def Memory.write (m : Memory) (a : Nat) (b : Byte) : Memory :=
  let rest := m.filter (fun c => c.1 != a)
  if b = resetByte a then rest else Memory.place a b rest

/-- Store bytes at consecutive addresses in ascending order (R54). -/
def Memory.writeList : Memory → Nat → List Byte → Memory
  | m, _, [] => m
  | m, a, b :: bs => Memory.writeList (m.write a b) (a + 1) bs

/-- The `n` bytes from an address on, in ascending order (R54). -/
def Memory.readList (m : Memory) : Nat → Nat → List Byte
  | _, 0 => []
  | a, n + 1 => m.read a :: Memory.readList m (a + 1) n

/-- The addresses of a list of cells rise strictly. -/
def Memory.rising : Memory → Bool
  | [] => true
  | [_] => true
  | c :: d :: rest => decide (c.1 < d.1) && Memory.rising (d :: rest)

/-- The canonical form: addresses strictly rising, each inside memory, no entry equal to what an unlisted address reads as. -/
def Memory.wf (m : Memory) : Bool :=
  Memory.rising m && m.all (fun c => decide (c.1 < memSize) && c.2 != resetByte c.1)

/-- The bounds check on the `n` addresses from `first` on (R56, R174): the lowest that is out of range, `max first MEM_SIZE`, if one is.
Addresses are mathematical integers, never reduced. -/
def firstBad (first n : Nat) : Option Nat :=
  if n ≠ 0 ∧ memSize ≤ first + n - 1 then some (max first memSize) else none

/-! ### Framebuffer -/

/-- `FB[r][c]` (R8). -/
def Grid.cell (g : Grid) (p : Pixel) : Bool := g[p.1][p.2]

/-- `FB[r][c] <- FB[r][c] xor 1` (R192). -/
def Grid.toggle (g : Grid) (p : Pixel) : Grid := g.set p.1 (g[p.1].set p.2 (!g[p.1][p.2]))

/-- Every cell off (R191, R270). -/
def Grid.blank : Grid := Vector.replicate height (Vector.replicate width false)

/-- Toggle the cells of a list in order; the answer also says whether one of them was on before it was toggled (R192). -/
def Grid.blit : Grid → List Pixel → Grid × Bool
  | g, [] => (g, false)
  | g, p :: ps =>
    let rest := Grid.blit (g.toggle p) ps
    (rest.1, g.cell p || rest.2)

/-! ### Taking a fatal condition -/

/-- The number of a fatal condition (R230, D20). -/
def FaultCode.number : FaultCode → Nat
  | .invalidOpcode => 1
  | .stackOverflow => 2
  | .stackUnderflow => 3
  | .addressFault => 4
  | .keyIndexFault => 5

/-- Taking a fatal condition (R236), the ONE operation that does it. `s` is the state at the start of the step, so every write of the
step is discarded, the advance of `PC` included, and `s.pc` is `a_pc`; only `FAULT` is set. Nothing else is saved, no mode changes and
control goes nowhere. There is no return from it (R238): only the host's `Reset` clears `FAULT`. -/
def raiseFault (code : FaultCode) (word : Word) (info : Nat) (s : State) : Answer :=
  .next { s with fault := some { code := code, pc := s.pc, word := word, info := info } }

end Sys2Proof.Machine
end

