-- ==== Sys2Proof/Machine/Operands.lean ====
section
/-! DEFINITION. The operand forms: the immediates (R73), the register range V0 to Vx (R175, R176), the sprite's cells (R193, R194), the
decimal digits (R173), the key index and the lowest pressed key (R213, R216), the random byte (R35). -/

namespace Sys2Proof.Machine

/-- An address or immediate `nnn` as a 16-bit value: zero-extended (R73). -/
def addr16 (nnn : Addr12) : Word := nnn.setWidth 16

/-- A register's byte as a 16-bit value: zero-extended (R7). -/
def byte16 (b : Byte) : Word := b.setWidth 16

/-- The numbers 0 to 15: the general registers, and the keys. -/
def sixteen : List (Fin 16) := [0, 1, 2, 3, 4, 5, 6, 7] ++ [8, 9, 10, 11, 12, 13, 14, 15]

/-- The registers V0 to Vx inclusive, in ascending order (R175, R176). -/
def regsUpTo (x : RegIdx) : List RegIdx := sixteen.filter (fun k => k.val ≤ x.val)

/-- `V[i] <- MEM[first + i]` for each of a list of registers (R176). -/
def State.loadRegs (s : State) (first : Nat) (ks : List RegIdx) : State :=
  ks.foldl (fun t k => t.setReg k (s.mem.read (first + k.val))) s

/-- The hundreds, tens and ones digits of a byte (R173). -/
def bcdDigits (b : Byte) : List Byte :=
  [BitVec.ofNat 8 (b.toNat / 100), BitVec.ofNat 8 (b.toNat / 10 % 10), BitVec.ofNat 8 (b.toNat % 10)]

/-- The address of the glyph of a value, the whole byte multiplied (R172). -/
def glyphAddr (b : Byte) : Word :=
  BitVec.ofNat 16 (Config.machine.fontBase + b.toNat * Config.machine.glyphBytes)

/-- A row coordinate, wrapped at the bottom edge (R194). -/
def wrapRow (k : Nat) : Fin height := ⟨k % height, Nat.mod_lt _ (by decide)⟩

/-- A column coordinate, wrapped at the right edge (R194). -/
def wrapCol (k : Nat) : Fin width := ⟨k % width, Nat.mod_lt _ (by decide)⟩

/-- The pixel `c` columns from the left of a sprite row: bit 7 is the leftmost (R193, D18). -/
def spriteBit (b : Byte) (c : Nat) : Bool := b.getLsbD (7 - c)

/-- The cells under the set bits of one sprite row, left to right (R192). -/
def rowPixels (ox row : Nat) (b : Byte) : List Pixel :=
  (List.range 8).filterMap fun c =>
    if spriteBit b c then some (wrapRow row, wrapCol (ox + c)) else none

/-- The cells under the set bits of a sprite whose first row is at row `oy`, top row first (R192, R193, R194). -/
def spritePixels (ox : Nat) : Nat → List Byte → List Pixel
  | _, [] => []
  | oy, b :: bs => rowPixels ox oy b ++ spritePixels ox (oy + 1) bs

/-- The key a register's value names, none above 15 (R216, D17): the index is not reduced to its low four bits. -/
def keyOf (b : Byte) : Option (Fin 16) :=
  if h : b.toNat < 16 then some ⟨b.toNat, h⟩ else none

/-- `KEY[k]` (R8, R33). -/
def State.key (s : State) (k : Fin 16) : Bool := s.keys[k]

/-- The least pressed key, if one is pressed (R213, D16). -/
def State.lowestKey (s : State) : Option (Fin 16) := sixteen.find? (fun k => s.key k)

/-- The random byte presented to the step that draws the next one (R35): a free value. -/
def State.randomByte (s : State) : Byte := Config.randomByte s.draws

/-- One more random byte has been drawn; the next draw is another free value (R151, D25). -/
def State.nextDraw (s : State) : State := { s with draws := s.draws + 1 }

end Sys2Proof.Machine
end

