-- ==== Sys2Proof/Machine/Flags.lean ====
section
/-! DEFINITION. The flag computations (R22, R152): VF is the only flag, and a side effect writes the whole byte 0x00 or 0x01. -/

namespace Sys2Proof.Machine

/-- The byte a flag is written as (R22, R153). -/
def flagByte (c : Bool) : Byte := if c then 1 else 0

/-- The carry out of bit 7 of a sum (R146). -/
def carry (a b : Byte) : Bool := decide (255 < a.toNat + b.toNat)

/-- The flag of a subtraction a - b: strictly greater, 0 for equal operands (R147, R149, C4). -/
def strictlyAbove (a b : Byte) : Bool := decide (b.toNat < a.toNat)

/-- The bit a right shift moves out (R148). -/
def lowBit (a : Byte) : Bool := a.getLsbD 0

/-- The bit a left shift moves out (R150). -/
def highBit (a : Byte) : Bool := a.getLsbD 7

/-- Whether the sum of the index register and a byte, before its reduction, lies beyond the last address (R171, D15). -/
def beyondMemory (i : Word) (a : Byte) : Bool := decide (memSize ≤ i.toNat + a.toNat)

/-- Write a result to `V[x]`, then a flag to VF: with `x = F` the flag is what remains (R153). -/
def State.setResultAndFlag (s : State) (x : RegIdx) (result : Byte) (flag : Bool) : State :=
  (s.setReg x result).setReg VF (flagByte flag)

end Sys2Proof.Machine
end

