-- ==== Sys2Proof/Machine/ControlFlow.lean ====
section
/-! DEFINITION. Control transfer: RET, JP, CALL, the register skips, the indexed jump (41_control_flow.md). In every meaning `s.pc` is
`a_pc`, the address of the instruction; `advance` makes it `a_pc + 2` (R102). -/

namespace Sys2Proof.Machine

/-- `RET`, 00EE (R120). The don't-care field `x` is only part of the word a fault records. -/
def execRet (x : Nibble) (s : State) : Answer :=
  match s.popReturn with
  | none => raiseFault .stackUnderflow (encode (.ret x)) 0 s
  | some (a, t) => .next (t.setPc a)

/-- `JP nnn`, 1nnn (R121). -/
def execJp (nnn : Addr12) (s : State) : Answer :=
  .next (s.advance.setPc (addr16 nnn))

/-- `CALL nnn`, 2nnn (R122): the address pushed is the advanced counter, `a_pc + 2`. -/
def execCall (nnn : Addr12) (s : State) : Answer :=
  match s.advance.pushReturn s.advance.pc with
  | none => raiseFault .stackOverflow (encode (.call nnn)) 0 s
  | some t => .next (t.setPc (addr16 nnn))

/-- `SE Vx, kk`, 3xkk (R123, R127). -/
def execSeVxKk (x : RegIdx) (kk : Byte) (s : State) : Answer :=
  .next (s.skipIf (s.reg x == kk))

/-- `SNE Vx, kk`, 4xkk (R124, R127). -/
def execSneVxKk (x : RegIdx) (kk : Byte) (s : State) : Answer :=
  .next (s.skipIf (s.reg x != kk))

/-- `SE Vx, Vy`, 5xy0 (R125, R127). -/
def execSeVxVy (x y : RegIdx) (s : State) : Answer :=
  .next (s.skipIf (s.reg x == s.reg y))

/-- `SNE Vx, Vy`, 9xy0 (R126, R127). -/
def execSneVxVy (x y : RegIdx) (s : State) : Answer :=
  .next (s.skipIf (s.reg x != s.reg y))

/-- `JP V0, nnn`, Bnnn (R128): always V0, and the sum is not reduced to 12 bits (D9). -/
def execJpV0 (nnn : Addr12) (s : State) : Answer :=
  .next (s.advance.setPc (addr16 nnn + byte16 (s.reg 0)))

end Sys2Proof.Machine
end

