-- ==== Sys2Proof/Machine/Display.lean ====
section
/-! DEFINITION. The display framebuffer controller: CLS and DRW (44_display.md). -/

namespace Sys2Proof.Machine

/-- `CLS`, 00E0 (R191): every cell off, `DIRTY` set (R196, D19). -/
def execCls (s : State) : Answer :=
  .next { s.advance with fb := Grid.blank, dirty := true }

/-- `DRW Vx, Vy, n`, Dxyn (R192): the coordinates are read before VF is written (R195, D18), VF is the collision, `DIRTY` is set. -/
def execDrw (x y : RegIdx) (n : Height) (s : State) : Answer :=
  match firstBad s.index.toNat n.val with
  | some a => raiseFault .addressFault (encode (.drw x y n)) a s
  | none =>
    let ox := (s.reg x).toNat % width
    let oy := (s.reg y).toNat % height
    let drawn := s.fb.blit (spritePixels ox oy (s.mem.readList s.index.toNat n.val))
    .next ({ s.advance with fb := drawn.1, dirty := true }.setReg VF (flagByte drawn.2))

end Sys2Proof.Machine
end

