-- ==== Sys2Proof/Machine/IndexMemory.lean ====
section
/-! DEFINITION. The index register and the memory instructions (43_index_memory.md). No access changes `I` (R177); every address is
checked before the first write (R56, R174). -/

namespace Sys2Proof.Machine

/-- `LD I, nnn`, Annn (R170). -/
def execLdI (nnn : Addr12) (s : State) : Answer :=
  .next (s.advance.setIndex (addr16 nnn))

/-- `ADD I, Vx`, Fx1E (R171): VF says whether the unreduced sum lies beyond the last address (D15); it is written after the byte is
read, so with `x = F` the old VF is added. -/
def execAddIVx (x : RegIdx) (s : State) : Answer :=
  .next ((s.advance.setIndex (s.index + byte16 (s.reg x))).setReg VF (flagByte (beyondMemory s.index (s.reg x))))

/-- `LD F, Vx`, Fx29 (R172): the whole byte is multiplied; no memory access. -/
def execLdFVx (x : RegIdx) (s : State) : Answer :=
  .next (s.advance.setIndex (glyphAddr (s.reg x)))

/-- `LD B, Vx`, Fx33 (R173). -/
def execLdBVx (x : RegIdx) (s : State) : Answer :=
  match firstBad s.index.toNat 3 with
  | some a => raiseFault .addressFault (encode (.ldBVx x)) a s
  | none => .next { s.advance with mem := s.mem.writeList s.index.toNat (bcdDigits (s.reg x)) }

/-- `LD [I], Vx`, Fx55 (R175): `x + 1` bytes, both ends included. -/
def execLdMemVx (x : RegIdx) (s : State) : Answer :=
  match firstBad s.index.toNat (x.val + 1) with
  | some a => raiseFault .addressFault (encode (.ldMemVx x)) a s
  | none => .next { s.advance with mem := s.mem.writeList s.index.toNat ((regsUpTo x).map s.reg) }

/-- `LD Vx, [I]`, Fx65 (R176): V0 to Vx, both ends included. -/
def execLdVxMem (x : RegIdx) (s : State) : Answer :=
  match firstBad s.index.toNat (x.val + 1) with
  | some a => raiseFault .addressFault (encode (.ldVxMem x)) a s
  | none => .next (s.advance.loadRegs s.index.toNat (regsUpTo x))

end Sys2Proof.Machine
end

