-- ==== Sys2Proof/Machine/LoadAlu.lean ====
section
/-! DEFINITION. Register loads and the ALU (42_load_alu.md). Operands are read from the state before the instruction, the result is
written, then the flag (R153). None of these can fault. -/

namespace Sys2Proof.Machine

/-- `LD Vx, kk`, 6xkk (R140). -/
def execLdVxKk (x : RegIdx) (kk : Byte) (s : State) : Answer :=
  .next (s.advance.setReg x kk)

/-- `ADD Vx, kk`, 7xkk (R141): no flag write. -/
def execAddVxKk (x : RegIdx) (kk : Byte) (s : State) : Answer :=
  .next (s.advance.setReg x (s.reg x + kk))

/-- `LD Vx, Vy`, 8xy0 (R142). -/
def execLdVxVy (x y : RegIdx) (s : State) : Answer :=
  .next (s.advance.setReg x (s.reg y))

/-- `OR Vx, Vy`, 8xy1 (R143): no flag write. -/
def execOr (x y : RegIdx) (s : State) : Answer :=
  .next (s.advance.setReg x (s.reg x ||| s.reg y))

/-- `AND Vx, Vy`, 8xy2 (R144): no flag write. -/
def execAnd (x y : RegIdx) (s : State) : Answer :=
  .next (s.advance.setReg x (s.reg x &&& s.reg y))

/-- `XOR Vx, Vy`, 8xy3 (R145): no flag write. -/
def execXor (x y : RegIdx) (s : State) : Answer :=
  .next (s.advance.setReg x (s.reg x ^^^ s.reg y))

/-- `ADD Vx, Vy`, 8xy4 (R146): VF is the carry. -/
def execAddVxVy (x y : RegIdx) (s : State) : Answer :=
  .next (s.advance.setResultAndFlag x (s.reg x + s.reg y) (carry (s.reg x) (s.reg y)))

/-- `SUB Vx, Vy`, 8xy5 (R147): VF is 1 only when `V[x]` is strictly above `V[y]` (C4). -/
def execSub (x y : RegIdx) (s : State) : Answer :=
  .next (s.advance.setResultAndFlag x (s.reg x - s.reg y) (strictlyAbove (s.reg x) (s.reg y)))

/-- `SHR Vx`, 8xy6 (R148): VF is the low bit before the shift. -/
def execShr (x : RegIdx) (s : State) : Answer :=
  .next (s.advance.setResultAndFlag x (s.reg x >>> 1) (lowBit (s.reg x)))

/-- `SUBN Vx, Vy`, 8xy7 (R149): VF is 1 only when `V[y]` is strictly above `V[x]`. -/
def execSubn (x y : RegIdx) (s : State) : Answer :=
  .next (s.advance.setResultAndFlag x (s.reg y - s.reg x) (strictlyAbove (s.reg y) (s.reg x)))

/-- `SHL Vx`, 8xyE (R150): VF is the high bit before the shift (C10). -/
def execShl (x : RegIdx) (s : State) : Answer :=
  .next (s.advance.setResultAndFlag x (s.reg x <<< 1) (highBit (s.reg x)))

/-- `RND Vx, kk`, Cxkk, for a given random byte (R151). -/
def rndWith (rnd : Byte) (x : RegIdx) (kk : Byte) (s : State) : Answer :=
  .next (s.advance.setReg x (rnd &&& kk)).nextDraw

/-- `RND Vx, kk`, Cxkk (R151): the random byte is a free value (log entry 13). -/
def execRnd (x : RegIdx) (kk : Byte) (s : State) : Answer :=
  rndWith s.randomByte x kk s

end Sys2Proof.Machine
end

