-- ==== Sys2Proof/Machine/TimerInput.lean ====
section
/-! DEFINITION. The timer and input instructions, key-wait among them (45_timer_input.md). -/

namespace Sys2Proof.Machine

/-- `SKP Vx`, Ex9E (R210, R216). -/
def execSkp (x : RegIdx) (s : State) : Answer :=
  match keyOf (s.reg x) with
  | none => raiseFault .keyIndexFault (encode (.skp x)) (s.reg x).toNat s
  | some k => .next (s.skipIf (s.key k))

/-- `SKNP Vx`, ExA1 (R211, R216). -/
def execSknp (x : RegIdx) (s : State) : Answer :=
  match keyOf (s.reg x) with
  | none => raiseFault .keyIndexFault (encode (.sknp x)) (s.reg x).toNat s
  | some k => .next (s.skipIf (!s.key k))

/-- `LD Vx, DT`, Fx07 (R212). -/
def execLdVxDt (x : RegIdx) (s : State) : Answer :=
  .next (s.advance.setReg x s.dt)

/-- `LD Vx, K`, Fx0A (R213): the least pressed key; with none pressed nothing changes at all, `PC` included, and the step's outcome is
`WaitingForKey`. The test is on the level of the latch and the latch is not written (D16, C6, C7). -/
def execLdVxK (x : RegIdx) (s : State) : Answer :=
  match s.lowestKey with
  | some k => .next (s.advance.setReg x (BitVec.ofNat 8 k.val))
  | none => .next s

/-- `LD DT, Vx`, Fx15 (R214). -/
def execLdDtVx (x : RegIdx) (s : State) : Answer :=
  .next { s.advance with dt := s.reg x }

/-- `LD ST, Vx`, Fx18 (R215). -/
def execLdStVx (x : RegIdx) (s : State) : Answer :=
  .next { s.advance with st := s.reg x }

end Sys2Proof.Machine
end

