-- ==== Sys2Proof/Machine/Fetch.lean ====
section
/-! DEFINITION. Fetching an instruction word (R53, R101), and placing one where the next fetch finds it. -/

namespace Sys2Proof.Machine

/-- The instruction word at `PC`, or the lowest out-of-range address when one of its two bytes has none: `max(a_pc, MEM_SIZE)` (R101). -/
def State.fetch (s : State) : Except Nat Word :=
  match firstBad s.pc.toNat 2 with
  | some a => .error a
  | none => .ok (wordOfBytes (s.mem.read s.pc.toNat) (s.mem.read (s.pc.toNat + 1)))

/-- `s` with an instruction word stored at `PC`, high byte first (R53), and `FAULT` clear, so that the very next step fetches and runs
it; where `PC` is no address a word can be fetched from, nothing can be placed and only `FAULT` is cleared. It stands for the host's
`LoadImage` (R273; log entry 20). -/
def State.placeWord (s : State) (w : Word) : State :=
  match firstBad s.pc.toNat 2 with
  | some _ => { s with fault := none }
  | none => { s with mem := s.mem.writeList s.pc.toNat (bytesOfWord w), fault := none }

end Sys2Proof.Machine
end

