-- ==== Sys2Proof/Machine/Step.lean ====
section
/-! DEFINITION. The step (R100): halted check, fetch, decode, dispatch, in the order of R108. -/

namespace Sys2Proof.Machine

/-- One step (R100). A halted core has no next state (R106, log entry 14). A fetch out of range and a word that is no instruction raise
their fatal conditions (R101, R231); otherwise the step is the instruction's. -/
def step (s : State) : Host.Outcome State Fault Refusal :=
  match s.fault with
  | some r => .fault (.halted r)
  | none =>
    match s.fetch with
    | .error a => raiseFault .addressFault 0 a s
    | .ok w =>
      match decode w with
      | .error _ => raiseFault .invalidOpcode w 0 s
      | .ok i => exec i s

/-- `s` with the instruction whose bits are `w`, numbered as spec/opcode_table.json numbers them, where `step` fetches next. -/
def State.withFetchWord (s : State) (nbits w : Nat) : State :=
  s.placeWord (wordOfBits nbits w)

end Sys2Proof.Machine
end

