-- ==== Sys2Proof/Machine/Protocol.lean ====
section
/-! DEFINITION. The interface between host and core (R36): the host's operations, what each answers, and the outcome of a step (R9,
R105). The operations are indivisible and never overlap; the host chooses their order, so a claim about the host's behaviour speaks of
every list of them. -/

namespace Sys2Proof.Machine

/-- The outcome of a step (R9, R105): an output, not stored (R20). -/
inductive StepReport where
  /-- the instruction completed and its writes took place -/
  | retired
  /-- key-wait, with no key pressed: nothing changed (R213) -/
  | waitingForKey
  /-- a fatal condition was taken (R236) -/
  | fault (code : FaultCode)
  /-- `FAULT` was already set: nothing changed (R106) -/
  | halted
deriving DecidableEq, Repr

/-- The next step would be an unsatisfied key-wait: `LD Vx, K` at `PC` and no key pressed (R213). -/
def State.waiting (s : State) : Bool :=
  match s.fetch with
  | .error _ => false
  | .ok w =>
    match decode w with
    | .ok (.ldVxK _) => s.lowestKey.isNone
    | _ => false

/-- The outcome of the step requested in state `s` (R105). -/
def report (s : State) : StepReport :=
  match step s with
  | .next t =>
    match t.fault with
    | some r => .fault r.code
    | none => if s.waiting then .waitingForKey else .retired
  | _ => .halted

/-- The host writes the input latch, which it alone does, between steps (R33). -/
def State.writeKeys (s : State) (keys : Keys) : State := { s with keys := keys }

/-- `Reset` (R271): every element takes its reset value, whatever the state was. The latch is the host's and stays as the host holds it
(R270, D32), and the draws of random bytes go on. -/
def State.resetOp (s : State) : State := { State.reset with keys := s.keys, draws := s.draws }

/-- `TickDelay` (R218): down by 1, floor 0. It works in every state, a halted one too (D29). -/
def State.tickDelay (s : State) : State := { s with dt := if s.dt = 0 then 0 else s.dt - 1 }

/-- `TickSound` (R219): down by 1, floor 0. -/
def State.tickSound (s : State) : State := { s with st := if s.st = 0 then 0 else s.st - 1 }

/-- `ClearDirty` (R197). -/
def State.clearDirty (s : State) : State := { s with dirty := false }

/-- `LoadImage` (R273, R274): the image is copied verbatim from `PROG_BASE` on; one that does not fit is refused whole (D27), and outside
the state `Reset` leaves the operation has no meaning (U15). -/
def State.loadImage (s : State) (img : List Byte) : Answer :=
  if s = s.resetOp then
    if memSize < Config.machine.progBase + img.length then .refused (.imageTooLong img.length)
    else .next { s with mem := s.mem.writeList Config.machine.progBase img }
  else .refused .loadAfterStart

/-- The host's operations (R36). `Step` presents the contents of the input latch with the step; its random byte is a free value. -/
inductive HostOp where
  | reset
  | loadImage (img : List Byte)
  | step (keys : Keys)
  | tickDelay
  | tickSound
  | readFB (p : Pixel)
  | readDirty
  | clearDirty
  | readFault
deriving DecidableEq, Repr

/-- What an operation answers the host (R36). -/
inductive Response where
  | done
  | stepped (o : StepReport)
  | cell (on : Bool)
  | dirty (d : Bool)
  | fault (r : Option FaultRecord)
deriving DecidableEq, Repr

/-- `Step` as the host sees it (R100): on a halted core the state is unchanged and the outcome is `Halted` (R106). -/
def State.hostStep (s : State) (keys : Keys) : Host.Outcome (State × Response) Fault Refusal :=
  let s' := s.writeKeys keys
  match step s' with
  | .next t => .next (t, .stepped (report s'))
  | .fault _ => .next (s', .stepped .halted)
  | .refused r => .refused r

/-- One operation of the host: the state after it and the answer (R36). -/
def perform (op : HostOp) (s : State) : Host.Outcome (State × Response) Fault Refusal :=
  match op with
  | .reset => .next (s.resetOp, .done)
  | .loadImage img =>
    match s.loadImage img with
    | .next t => .next (t, .done)
    | .fault f => .fault f
    | .refused r => .refused r
  | .step keys => s.hostStep keys
  | .tickDelay => .next (s.tickDelay, .done)
  | .tickSound => .next (s.tickSound, .done)
  | .readFB p => .next (s, .cell (s.fb.cell p))
  | .readDirty => .next (s, .dirty s.dirty)
  | .clearDirty => .next (s.clearDirty, .done)
  | .readFault => .next (s, .fault s.fault)

/-- The host's operations one after another (R274); an operation the model refuses ends the run. -/
def performAll : List HostOp → State → Host.Outcome State Fault Refusal
  | [], s => .next s
  | op :: ops, s =>
    match perform op s with
    | .next (t, _) => performAll ops t
    | .fault f => .fault f
    | .refused r => .refused r

end Sys2Proof.Machine
end

