-- ==== Sys2Proof/Safety.lean ====
section
/-! DEFINITION. The terms claims are stated in: a row's encoding (R76), the invalid words (R78), what an instruction may write (R37), and
the invariant of the machine (R24, R26, R50, R236). -/

namespace Sys2Proof.Machine

/-- Every word that matches a row's `match` under its `mask` decodes to the instruction `f` reads from it, and no other word decodes to
an instruction `f` could read (R76). -/
abbrev EncodedAs (value mask : Word) (f : Word → Instr) : Prop :=
  ∀ w : Word, (w &&& mask = value → decode w = .ok (f w)) ∧ (w &&& mask ≠ value → ∀ v, decode w ≠ .ok (f v))

/-- The words R78 lists as invalid. -/
def InvalidWord (w : Word) : Prop :=
  (opField w = 0x0 ∧ kkField w ∉ [0xE0, 0xEE]) ∨
  (opField w = 0x8 ∧ nBits w ∈ [0x8, 0x9, 0xA, 0xB, 0xC, 0xD, 0xF]) ∨
  (opField w = 0xE ∧ kkField w ∉ [0x9E, 0xA1]) ∨
  (opField w = 0xF ∧ kkField w ∉ [0x07, 0x0A, 0x15, 0x18, 0x1E, 0x29, 0x33, 0x55, 0x65])

/-- `s` with a fatal condition recorded and nothing else changed (R236). -/
abbrev State.faulted (s : State) (code : FaultCode) (word : Word) (info : Nat) : State :=
  { s with fault := some { code := code, pc := s.pc, word := word, info := info } }

/-- The sprite of a draw has a set bit over the cell `p`: bit `7 - c` of the byte at `I + r`, `r` rows and `c` columns from the origin,
each coordinate wrapped on its own axis (R192, R193, R194). -/
def State.spriteCovers (s : State) (x y : RegIdx) (n : Height) (p : Pixel) : Prop :=
  ∃ r < n.val, ∃ c < 8, (s.mem.read (s.index.toNat + r)).getLsbD (7 - c) = true ∧
    p.1.val = ((s.reg y).toNat % 32 + r) % 32 ∧ p.2.val = ((s.reg x).toNat % 64 + c) % 64

/-- The seven instructions that write VF as a side effect (R22). -/
def writesFlag (i : Instr) : Bool :=
  match i with
  | .addVxVy _ _ | .sub _ _ | .shr _ _ | .subn _ _ | .shl _ _ | .addIVx _ | .drw _ _ _ => true
  | _ => false

/-- The general registers an instruction names as its destination (R37): `V[x]`, the range V0 to Vx, or none. -/
def destination (i : Instr) (k : RegIdx) : Bool :=
  match i with
  | .ldVxKk x _ | .addVxKk x _ | .ldVxVy x _ | .or x _ | .and x _ | .xor x _ | .addVxVy x _ | .sub x _ | .shr x _ | .subn x _
  | .shl x _ | .rnd x _ | .ldVxDt x | .ldVxK x => k == x
  | .ldVxMem x => decide (k.val ≤ x.val)
  | _ => false

/-- How many addresses, from `I` on, an instruction accesses, for the four that access memory through `I` (R52, R174). -/
def dataLength (i : Instr) : Option Nat :=
  match i with
  | .drw _ _ n => some n.val
  | .ldBVx _ => some 3
  | .ldMemVx x | .ldVxMem x => some (x.val + 1)
  | _ => none

/-- One of the four instructions that access memory through `I` (R52, R234). -/
def accessesMemory (i : Instr) : Bool := (dataLength i).isSome

/-- What a record in `FAULT` says is true of the state it stands in (R230, R236): since a fault discards every write of its step, the
state still shows the condition. -/
def FaultRecord.explains (r : FaultRecord) (s : State) : Prop :=
  r.pc = s.pc ∧ r.info < 2 ^ 17 ∧
  match r.code with
  | .invalidOpcode => s.fetch = .ok r.word ∧ decode r.word = .error (.invalidOpcode r.word) ∧ r.info = 0
  | .stackOverflow => s.fetch = .ok r.word ∧ (∃ nnn, decode r.word = .ok (.call nnn)) ∧ s.sp = 16 ∧ r.info = 0
  | .stackUnderflow => s.fetch = .ok r.word ∧ (∃ x, decode r.word = .ok (.ret x)) ∧ s.sp = 0 ∧ r.info = 0
  | .addressFault =>
    memSize ≤ r.info ∧
    ((memSize ≤ s.pc.toNat + 1 ∧ r.word = 0 ∧ r.info = max s.pc.toNat memSize) ∨
     (s.fetch = .ok r.word ∧ r.info = max s.index.toNat memSize ∧
       ∃ i len, decode r.word = .ok i ∧ dataLength i = some len ∧ len ≠ 0 ∧ memSize < s.index.toNat + len))
  | .keyIndexFault =>
    s.fetch = .ok r.word ∧
    ∃ x, (decode r.word = .ok (.skp x) ∨ decode r.word = .ok (.sknp x)) ∧ 15 < (s.reg x).toNat ∧ r.info = (s.reg x).toNat

/-- The invariant of the machine: memory is canonical and inside `MEM_SIZE` (R50); every return address is at most 0x1000 and `PC` is at
most 0x10FE (R24); a recorded fatal condition still explains the state (R236). -/
structure State.Inv (s : State) : Prop where
  mem   : s.mem.wf = true
  stack : ∀ k : Fin 16, s.stack[k].toNat ≤ 0x1000
  pc    : s.pc.toNat ≤ 0x10FE
  fault : ∀ r, s.fault = some r → r.explains s

end Sys2Proof.Machine
end

