-- ==== Sys2Proof/Certificates/Slice0/Obligations.lean ====
section
/-! DEFINITION. The statements for the provers, from the numbered rules of the spec. Where a clause rests on a decision the spec marks as
its own (D<n>) or on the model's choice, the docstring says so. -/

open Sys2Proof Sys2Proof.Machine

/-! ### The step, decoding and encoding -/

/-- A running core whose two bytes at `PC` decode to an instruction takes exactly that instruction's step (R100, R101); the model adds
nothing around it, since every meaning does its own advance of `PC` (R102). -/
def Obligations.StepRunsTheDecodedInstruction : Prop :=
  ∀ (s : State) (i : Instr), s.fault = none → s.pc.toNat + 1 < 4096 →
    decode (s.mem.read s.pc.toNat ++ s.mem.read (s.pc.toNat + 1)) = .ok i → step s = exec i s

/-- A word placed for the next fetch is the one the very next step runs, from every state with a fetchable `PC` (log entry 20). -/
def Obligations.PlacedWordRunsNext : Prop :=
  ∀ (s : State) (w : Nat) (i : Instr), s.pc.toNat + 1 < 4096 → decodeTableWord 16 w = some i →
    step (s.withFetchWord 16 w) = exec i (s.withFetchWord 16 w)

/-- The words of the spec's decode vectors (95_test_vectors.md), and one more of each family, decode to the instruction they stand for. The
opcode numbers are the spec's decision D11. -/
def Obligations.WordsDecodeAsEncodedInTheSpec : Prop :=
  decode 0x6005 = .ok (.ldVxKk 0 0x05) ∧ decode 0xD7A3 = .ok (.drw 7 10 3) ∧ decode 0x8AB4 = .ok (.addVxVy 10 11) ∧
  decode 0x2ABC = .ok (.call 0xABC) ∧ decode 0xFE65 = .ok (.ldVxMem 14) ∧ decode 0x00EE = .ok (.ret 0) ∧
  decode 0xE09E = .ok (.skp 0) ∧ decode 0xF50A = .ok (.ldVxK 5) ∧ decode 0x5237 = .ok (.seVxVy 2 3 7) ∧
  decode 0x831E = .ok (.shl 3 1) ∧ decode 0x0000 = .error (.invalidOpcode 0x0000) ∧ decode 0xFFFF = .error (.invalidOpcode 0xFFFF)

/-- The six fields of every word, as the formulas on the word and on its two bytes (R71). -/
def Obligations.FieldsOfEveryWord : Prop :=
  (∀ w : Word,
    (opField w).toNat = ((w >>> 12) &&& 0xF).toNat ∧ (xReg w).val = ((w >>> 8) &&& 0xF).toNat ∧
    (yReg w).val = ((w >>> 4) &&& 0xF).toNat ∧ (nHeight w).val = (w &&& 0xF).toNat ∧
    (kkField w).toNat = (w &&& 0xFF).toNat ∧ (nnnField w).toNat = (w &&& 0xFFF).toNat ∧
    xReg w = (xBits w).toFin ∧ yReg w = (yBits w).toFin ∧ nHeight w = (nBits w).toFin) ∧
  (∀ b0 b1 : Byte,
    opField (wordOfBytes b0 b1) = b0.extractLsb' 4 4 ∧ xBits (wordOfBytes b0 b1) = b0.extractLsb' 0 4 ∧
    yBits (wordOfBytes b0 b1) = b1.extractLsb' 4 4 ∧ nBits (wordOfBytes b0 b1) = b1.extractLsb' 0 4 ∧
    kkField (wordOfBytes b0 b1) = b1 ∧ nnnField (wordOfBytes b0 b1) = b0.extractLsb' 0 4 ++ b1)

/-- Decoding the encoding of an instruction gives it back, with every field at every value (R76, R79, R81). -/
def Obligations.DecodeOfEncode : Prop :=
  ∀ i : Instr, i.wellFormed = true → decode (encode i) = .ok i

/-- Every word that decodes is the encoding of what it decodes to: no bit of a valid word is dropped (R79, R81). -/
def Obligations.EncodeOfDecode : Prop :=
  ∀ (w : Word) (i : Instr), decode w = .ok i → encode i = w

/-- The two-level dispatch and the match-and-mask table select the same row for every word (R76, R104); the numbers are decision D11. -/
def Obligations.DispatchAgreesWithOpcodeTable : Prop :=
  ∀ (w : Word) (m : String),
    (∃ i, decode w = .ok i ∧ mnemonic i = m) ↔ ∃ row ∈ opcodeTable, row.1 = m ∧ w &&& row.2.2 = row.2.1

/-- The invalid words are exactly those R78 lists, and a running core that fetches one takes `InvalidOpcode`, recording the word and its
address (R231). -/
def Obligations.InvalidWordsRaiseInvalidOpcode : Prop :=
  (∀ w : Word, InvalidWord w ↔ ∀ i, decode w ≠ .ok i) ∧
  (∀ (s : State) (w : Word), s.fault = none → s.fetch = .ok w →
    (InvalidWord w → step s = .next (s.faulted .invalidOpcode w 0)) ∧
    (¬ InvalidWord w → ∃ i, decode w = .ok i ∧ step s = exec i s))

/-- With `STRICT_DECODE` set, the words that no longer decode are exactly the valid ones with a non-zero don't-care field of CLS, RET, SE
or SNE; the `y` field of the shifts stays a don't-care (R79, D12). -/
def Obligations.StrictDecodeRejectsNonzeroFields : Prop :=
  ∀ (w : Word) (i : Instr), decodeWith true w = .ok i ↔
    (decode w = .ok i ∧
      ((opField w = 0x0 → xBits w = 0) ∧ (opField w = 0x5 → nBits w = 0) ∧ (opField w = 0x9 → nBits w = 0)))

/-- The fetch (R101): it succeeds exactly when `a_pc <= 0xFFE` and is big-endian; otherwise the step takes `AddressFault` with the lowest
out-of-range address and `word = 0`. -/
def Obligations.FetchReadsTwoBytesOrFaults : Prop :=
  (∀ s : State, s.pc.toNat ≤ 0xFFE ↔ ∃ w, s.fetch = .ok w) ∧
  (∀ s : State, s.pc.toNat ≤ 0xFFE → s.fetch = .ok (s.mem.read s.pc.toNat ++ s.mem.read (s.pc.toNat + 1))) ∧
  (∀ s : State, s.fault = none → 0xFFE < s.pc.toNat →
    step s = .next (s.faulted .addressFault 0 (if 4096 ≤ s.pc.toNat then s.pc.toNat else 4096)))

/-! ### Control transfer -/

/-- `RET` (R120, R233): what is popped is what the matching call pushed, the address after it, the entry popped stays, and no instruction
alters an entry in use.
The opcode numbers are the spec's decision D11 (log entry 1). -/
def Obligations.RetPopsTheReturnAddress : Prop :=
  EncodedAs 0x00EE 0xF0FF (fun w => .ret (xBits w)) ∧
  (∀ (x : Nibble) (s : State), s.sp ≠ 0 →
    ∃ t, exec (.ret x) s = .next t ∧ t = { s with sp := t.sp, pc := t.pc } ∧
      t.sp.val + 1 = s.sp.val ∧ s.stack[t.sp.val]? = some t.pc) ∧
  (∀ (x : Nibble) (s : State), s.sp = 0 →
    exec (.ret x) s = .next (s.faulted .stackUnderflow (encode (.ret x)) 0)) ∧
  (∀ (nnn : Addr12) (x : Nibble) (s u : State), s.sp.val < 16 →
    ∃ t, exec (.call nnn) s = .next t ∧
      (u.sp = t.sp → u.stack = t.stack → ∃ r, exec (.ret x) u = .next r ∧ r.pc = s.pc + 2 ∧ r.sp = s.sp)) ∧
  (∀ (i : Instr) (s t : State) (k : Fin 16), exec i s = .next t → k.val < s.sp.val → t.stack[k] = s.stack[k])

/-- `JP nnn` (R121), to any address, odd ones and the font table included; a jump to its own address, which changes nothing; and a jump to
0xFFF, which completes and faults at the next step's fetch.
The opcode numbers are the spec's decision D11 (log entry 1). -/
def Obligations.JpSetsThePc : Prop :=
  EncodedAs 0x1000 0xF000 (fun w => .jp (nnnField w)) ∧
  (∀ (nnn : Addr12) (s : State),
    ∃ t, exec (.jp nnn) s = .next t ∧ t = { s with pc := t.pc } ∧ t.pc.toNat = nnn.toNat) ∧
  (∀ (nnn : Addr12) (s : State), s.pc.toNat = nnn.toNat → exec (.jp nnn) s = .next s) ∧
  (∀ s : State, s.fault = none →
    ∃ t, exec (.jp 0xFFF) s = .next t ∧ t.pc = 0xFFF ∧ step t = .next (t.faulted .addressFault 0 4096))

/-- `CALL nnn` (R122, R232).
The opcode numbers are the spec's decision D11 (log entry 1). -/
def Obligations.CallPushesTheReturnAddress : Prop :=
  EncodedAs 0x2000 0xF000 (fun w => .call (nnnField w)) ∧
  (∀ (nnn : Addr12) (s : State), s.sp.val < 16 →
    ∃ t, exec (.call nnn) s = .next t ∧ t = { s with stack := t.stack, sp := t.sp, pc := t.pc } ∧
      t.sp.val = s.sp.val + 1 ∧ t.pc.toNat = nnn.toNat ∧
      ∀ k : Fin 16, t.stack[k] = if k.val = s.sp.val then s.pc + 2 else s.stack[k]) ∧
  (∀ (nnn : Addr12) (s : State), s.sp = 16 →
    exec (.call nnn) s = .next (s.faulted .stackOverflow (encode (.call nnn)) 0))

/-- A call followed at once by a return goes on after the call, at every nesting depth a call is possible at (R120, R122, example E4). -/
def Obligations.CallThenRetGoesOnAfterTheCall : Prop :=
  ∀ (nnn : Addr12) (x : Nibble) (s : State), s.sp.val < 16 →
    ∃ t u, exec (.call nnn) s = .next t ∧ exec (.ret x) t = .next u ∧
      u = { s with stack := u.stack, pc := s.pc + 2 } ∧
      ∀ k : Fin 16, k.val ≠ s.sp.val → u.stack[k] = s.stack[k]

/-- The four register skips (R123 to R126): 2 or 4 added to the instruction's address, and nothing else.
The opcode numbers are the spec's decision D11 (log entry 1). -/
def Obligations.RegisterSkips : Prop :=
  EncodedAs 0x3000 0xF000 (fun w => .seVxKk (xReg w) (kkField w)) ∧
  EncodedAs 0x4000 0xF000 (fun w => .sneVxKk (xReg w) (kkField w)) ∧
  EncodedAs 0x5000 0xF000 (fun w => .seVxVy (xReg w) (yReg w) (nBits w)) ∧
  EncodedAs 0x9000 0xF000 (fun w => .sneVxVy (xReg w) (yReg w) (nBits w)) ∧
  (∀ (x : RegIdx) (kk : Byte) (s : State),
    exec (.seVxKk x kk) s = .next { s with pc := if s.reg x = kk then s.pc + 4 else s.pc + 2 } ∧
    exec (.sneVxKk x kk) s = .next { s with pc := if s.reg x ≠ kk then s.pc + 4 else s.pc + 2 }) ∧
  (∀ (x y : RegIdx) (n : Nibble) (s : State),
    exec (.seVxVy x y n) s = .next { s with pc := if s.reg x = s.reg y then s.pc + 4 else s.pc + 2 } ∧
    exec (.sneVxVy x y n) s = .next { s with pc := if s.reg x ≠ s.reg y then s.pc + 4 else s.pc + 2 })

/-- `JP V0, nnn` (R128): always V0, and the sum is not reduced to 12 bits, which is the spec's decision D9 (log entry 7).
The opcode numbers are the spec's decision D11 (log entry 1). -/
def Obligations.JpV0AddsV0 : Prop :=
  EncodedAs 0xB000 0xF000 (fun w => .jpV0 (nnnField w)) ∧
  ∀ (nnn : Addr12) (s : State),
    ∃ t, exec (.jpV0 nnn) s = .next t ∧ t = { s with pc := t.pc } ∧ t.pc.toNat = nnn.toNat + (s.reg 0).toNat

/-! ### Loads and ALU -/

/-- `LD Vx, kk` (R140). -/
def Obligations.LdVxKkLoadsTheImmediate : Prop :=
  EncodedAs 0x6000 0xF000 (fun w => .ldVxKk (xReg w) (kkField w)) ∧
  ∀ (x : RegIdx) (kk : Byte) (s : State),
    ∃ t, exec (.ldVxKk x kk) s = .next t ∧ t = { s with v := t.v, pc := s.pc + 2 } ∧
      ∀ k, t.reg k = if k = x then kk else s.reg k

/-- `ADD Vx, kk` (R141): modulo 256, VF not written. -/
def Obligations.AddVxKkAddsWithoutFlag : Prop :=
  EncodedAs 0x7000 0xF000 (fun w => .addVxKk (xReg w) (kkField w)) ∧
  ∀ (x : RegIdx) (kk : Byte) (s : State),
    ∃ t, exec (.addVxKk x kk) s = .next t ∧ t = { s with v := t.v, pc := s.pc + 2 } ∧
      (t.reg x).toNat = ((s.reg x).toNat + kk.toNat) % 256 ∧ ∀ k, k ≠ x → t.reg k = s.reg k

/-- `LD Vx, Vy` (R142).
The opcode numbers are the spec's decision D11 (log entry 1). -/
def Obligations.LdVxVyCopiesARegister : Prop :=
  EncodedAs 0x8000 0xF00F (fun w => .ldVxVy (xReg w) (yReg w)) ∧
  ∀ (x y : RegIdx) (s : State),
    ∃ t, exec (.ldVxVy x y) s = .next t ∧ t = { s with v := t.v, pc := s.pc + 2 } ∧
      ∀ k, t.reg k = if k = x then s.reg y else s.reg k

/-- `OR`, `AND`, `XOR` (R143, R144, R145): bit by bit, VF not written.
The opcode numbers are the spec's decision D11 (log entry 1). -/
def Obligations.BitwiseOpsWithoutFlag : Prop :=
  EncodedAs 0x8001 0xF00F (fun w => .or (xReg w) (yReg w)) ∧
  EncodedAs 0x8002 0xF00F (fun w => .and (xReg w) (yReg w)) ∧
  EncodedAs 0x8003 0xF00F (fun w => .xor (xReg w) (yReg w)) ∧
  ∀ (x y : RegIdx) (s : State),
    (∃ t, exec (.or x y) s = .next t ∧ t = { s with v := t.v, pc := s.pc + 2 } ∧
      (∀ i < 8, (t.reg x).getLsbD i = ((s.reg x).getLsbD i || (s.reg y).getLsbD i)) ∧ ∀ k, k ≠ x → t.reg k = s.reg k) ∧
    (∃ t, exec (.and x y) s = .next t ∧ t = { s with v := t.v, pc := s.pc + 2 } ∧
      (∀ i < 8, (t.reg x).getLsbD i = ((s.reg x).getLsbD i && (s.reg y).getLsbD i)) ∧ ∀ k, k ≠ x → t.reg k = s.reg k) ∧
    (∃ t, exec (.xor x y) s = .next t ∧ t = { s with v := t.v, pc := s.pc + 2 } ∧
      (∀ i < 8, (t.reg x).getLsbD i = ((s.reg x).getLsbD i != (s.reg y).getLsbD i)) ∧ ∀ k, k ≠ x → t.reg k = s.reg k)

/-- `ADD Vx, Vy` (R146): VF is the carry and is written last, so with `x = F` only the carry remains.
The opcode numbers are the spec's decision D11 (log entry 1). -/
def Obligations.AddVxVyAddsAndCarries : Prop :=
  EncodedAs 0x8004 0xF00F (fun w => .addVxVy (xReg w) (yReg w)) ∧
  ∀ (x y : RegIdx) (s : State),
    ∃ t, exec (.addVxVy x y) s = .next t ∧ t = { s with v := t.v, pc := s.pc + 2 } ∧
      t.reg 15 = (if 255 < (s.reg x).toNat + (s.reg y).toNat then 1 else 0) ∧
      (x ≠ 15 → (t.reg x).toNat = ((s.reg x).toNat + (s.reg y).toNat) % 256) ∧
      ∀ k, k ≠ x → k ≠ 15 → t.reg k = s.reg k

/-- `SUB` and `SUBN` (R147, R149): modulo 256, VF the strict comparison (C4), written last.
The opcode numbers are the spec's decision D11 (log entry 1). -/
def Obligations.SubAndSubnWithStrictFlag : Prop :=
  EncodedAs 0x8005 0xF00F (fun w => .sub (xReg w) (yReg w)) ∧
  EncodedAs 0x8007 0xF00F (fun w => .subn (xReg w) (yReg w)) ∧
  ∀ (x y : RegIdx) (s : State),
    (∃ t, exec (.sub x y) s = .next t ∧ t = { s with v := t.v, pc := s.pc + 2 } ∧
      t.reg 15 = (if (s.reg y).toNat < (s.reg x).toNat then 1 else 0) ∧
      (x ≠ 15 → (t.reg x).toNat = ((s.reg x).toNat + 256 - (s.reg y).toNat) % 256) ∧
      ∀ k, k ≠ x → k ≠ 15 → t.reg k = s.reg k) ∧
    (∃ t, exec (.subn x y) s = .next t ∧ t = { s with v := t.v, pc := s.pc + 2 } ∧
      t.reg 15 = (if (s.reg x).toNat < (s.reg y).toNat then 1 else 0) ∧
      (x ≠ 15 → (t.reg x).toNat = ((s.reg y).toNat + 256 - (s.reg x).toNat) % 256) ∧
      ∀ k, k ≠ x → k ≠ 15 → t.reg k = s.reg k)

/-- `SHR` and `SHL` (R148, R150): by one place, VF the bit moved out, written last; `V[y]` is not used.
The opcode numbers are the spec's decision D11 (log entry 1). -/
def Obligations.ShiftsMoveOneBitIntoVf : Prop :=
  EncodedAs 0x8006 0xF00F (fun w => .shr (xReg w) (yBits w)) ∧
  EncodedAs 0x800E 0xF00F (fun w => .shl (xReg w) (yBits w)) ∧
  ∀ (x : RegIdx) (y : Nibble) (s : State),
    (∃ t, exec (.shr x y) s = .next t ∧ t = { s with v := t.v, pc := s.pc + 2 } ∧
      (t.reg 15).toNat = (s.reg x).toNat % 2 ∧
      (x ≠ 15 → (t.reg x).toNat = (s.reg x).toNat / 2) ∧ ∀ k, k ≠ x → k ≠ 15 → t.reg k = s.reg k) ∧
    (∃ t, exec (.shl x y) s = .next t ∧ t = { s with v := t.v, pc := s.pc + 2 } ∧
      (t.reg 15).toNat = (s.reg x).toNat / 128 ∧
      (x ≠ 15 → (t.reg x).toNat = (s.reg x).toNat * 2 % 256) ∧ ∀ k, k ≠ x → k ≠ 15 → t.reg k = s.reg k)

/-- `RND Vx, kk` (R151): for every random byte the result is that byte and kk; the step uses the next free value, under no law (D25, log
entry 13).
The opcode numbers are the spec's decision D11 (log entry 1). -/
def Obligations.RndMasksAFreeByte : Prop :=
  EncodedAs 0xC000 0xF000 (fun w => .rnd (xReg w) (kkField w)) ∧
  (∀ (x : RegIdx) (kk : Byte) (s : State), exec (.rnd x kk) s = rndWith (Config.randomByte s.draws) x kk s) ∧
  (∀ (rnd : Byte) (x : RegIdx) (kk : Byte) (s : State),
    ∃ t, rndWith rnd x kk s = .next t ∧ t = { s with v := t.v, pc := s.pc + 2, draws := s.draws + 1 } ∧
      (∀ i < 8, (t.reg x).getLsbD i = (rnd.getLsbD i && kk.getLsbD i)) ∧ ∀ k, k ≠ x → t.reg k = s.reg k) ∧
  (∀ (x : RegIdx) (kk : Byte) (s : State), ∃ t, exec (.rnd x kk) s = .next t ∧ t.reg x &&& ~~~kk = 0)

/-! ### Index register and memory -/

/-- `LD I, nnn` (R170).
The opcode numbers are the spec's decision D11 (log entry 1). -/
def Obligations.LdISetsTheIndex : Prop :=
  EncodedAs 0xA000 0xF000 (fun w => .ldI (nnnField w)) ∧
  ∀ (nnn : Addr12) (s : State),
    ∃ t, exec (.ldI nnn) s = .next t ∧ t = { s with index := t.index, pc := s.pc + 2 } ∧ t.index.toNat = nnn.toNat

/-- `ADD I, Vx` (R171): modulo 65536, VF from the unreduced sum; not masked to 12 bits (D9) and the flag of a wrapping sum (D15) are the
spec's decisions (log entries 7 and 10).
The opcode numbers are the spec's decision D11 (log entry 1). -/
def Obligations.AddIVxAddsAndFlags : Prop :=
  EncodedAs 0xF01E 0xF0FF (fun w => .addIVx (xReg w)) ∧
  ∀ (x : RegIdx) (s : State),
    ∃ t, exec (.addIVx x) s = .next t ∧ t = { s with v := t.v, index := t.index, pc := s.pc + 2 } ∧
      t.index.toNat = (s.index.toNat + (s.reg x).toNat) % 65536 ∧
      t.reg 15 = (if 4096 ≤ s.index.toNat + (s.reg x).toNat then 1 else 0) ∧ ∀ k, k ≠ 15 → t.reg k = s.reg k

/-- `LD F, Vx` (R172): five times the whole byte; five bytes a glyph is the spec's decision D4 (log entry 4).
The opcode numbers are the spec's decision D11 (log entry 1). -/
def Obligations.LdFVxPointsAtTheGlyph : Prop :=
  EncodedAs 0xF029 0xF0FF (fun w => .ldFVx (xReg w)) ∧
  ∀ (x : RegIdx) (s : State),
    ∃ t, exec (.ldFVx x) s = .next t ∧ t = { s with index := t.index, pc := s.pc + 2 } ∧
      t.index.toNat = (s.reg x).toNat * 5

/-- `LD B, Vx` (R173): three digits at I, I+1, I+2, every other byte as before; out of range, nothing but the fault.
The opcode numbers are the spec's decision D11 (log entry 1). -/
def Obligations.LdBVxStoresThreeDigits : Prop :=
  EncodedAs 0xF033 0xF0FF (fun w => .ldBVx (xReg w)) ∧
  (∀ (x : RegIdx) (s : State), s.index.toNat + 2 < 4096 →
    ∃ t, exec (.ldBVx x) s = .next t ∧ t = { s with mem := t.mem, pc := s.pc + 2 } ∧
      (t.mem.read s.index.toNat).toNat = (s.reg x).toNat / 100 ∧
      (t.mem.read (s.index.toNat + 1)).toNat = (s.reg x).toNat / 10 % 10 ∧
      (t.mem.read (s.index.toNat + 2)).toNat = (s.reg x).toNat % 10 ∧
      ∀ a, (a < s.index.toNat ∨ s.index.toNat + 2 < a) → t.mem.read a = s.mem.read a) ∧
  (∀ (x : RegIdx) (s : State), 4096 ≤ s.index.toNat + 2 →
    exec (.ldBVx x) s = .next (s.faulted .addressFault (encode (.ldBVx x)) (max s.index.toNat 4096)))

/-- `LD [I], Vx` (R175): V0 to Vx at I to I+x, both ends included, every other byte as before; out of range, nothing but the fault.
The opcode numbers are the spec's decision D11 (log entry 1). -/
def Obligations.LdMemVxStoresTheRange : Prop :=
  EncodedAs 0xF055 0xF0FF (fun w => .ldMemVx (xReg w)) ∧
  (∀ (x : RegIdx) (s : State), s.index.toNat + x.val < 4096 →
    ∃ t, exec (.ldMemVx x) s = .next t ∧ t = { s with mem := t.mem, pc := s.pc + 2 } ∧
      (∀ k : RegIdx, k.val ≤ x.val → t.mem.read (s.index.toNat + k.val) = s.reg k) ∧
      ∀ a, (a < s.index.toNat ∨ s.index.toNat + x.val < a) → t.mem.read a = s.mem.read a) ∧
  (∀ (x : RegIdx) (s : State), 4096 ≤ s.index.toNat + x.val →
    exec (.ldMemVx x) s = .next (s.faulted .addressFault (encode (.ldMemVx x)) (max s.index.toNat 4096)))

/-- `LD Vx, [I]` (R176): V0 to Vx from I to I+x, both ends included; a block store and then a block load from the same base restores the
registers, whatever they were changed to in between; out of range, nothing but the fault.
The opcode numbers are the spec's decision D11 (log entry 1). -/
def Obligations.LdVxMemLoadsTheRange : Prop :=
  EncodedAs 0xF065 0xF0FF (fun w => .ldVxMem (xReg w)) ∧
  (∀ (x : RegIdx) (s : State), s.index.toNat + x.val < 4096 →
    ∃ t, exec (.ldVxMem x) s = .next t ∧ t = { s with v := t.v, pc := s.pc + 2 } ∧
      ∀ k : RegIdx, t.reg k = if k.val ≤ x.val then s.mem.read (s.index.toNat + k.val) else s.reg k) ∧
  (∀ (x : RegIdx) (s u : State), s.index.toNat + x.val < 4096 → u.index = s.index →
    ∃ t, exec (.ldMemVx x) s = .next t ∧
      (u.mem = t.mem → ∃ r, exec (.ldVxMem x) u = .next r ∧ ∀ k : RegIdx, k.val ≤ x.val → r.reg k = s.reg k)) ∧
  (∀ (x : RegIdx) (s : State), 4096 ≤ s.index.toNat + x.val →
    exec (.ldVxMem x) s = .next (s.faulted .addressFault (encode (.ldVxMem x)) (max s.index.toNat 4096)))

/-- A store is seen by the very next fetch: a block store over the next instruction word changes what the next step runs (R62, program
P7). -/
def Obligations.StoreIsSeenByTheNextFetch : Prop :=
  ∀ (x : RegIdx) (s : State), 1 ≤ x.val → s.index = s.pc + 2 → s.index.toNat + x.val < 4096 →
    ∃ t, exec (.ldMemVx x) s = .next t ∧ t.fetch = .ok (s.reg 0 ++ s.reg 1)

/-- `AddressFault` (R234): raised by the fetch and by the four memory instructions, exactly when one of their addresses is out of range,
with the lowest such address; in range, or with `n = 0`, they raise nothing, and holding an out-of-range `I` or `PC` is no fault. -/
def Obligations.AddressFaultExactlyOutOfRange : Prop :=
  (∀ s : State, s.fault = none → 4096 ≤ s.pc.toNat + 1 →
    step s = .next (s.faulted .addressFault 0 (max s.pc.toNat 4096))) ∧
  (∀ (i : Instr) (s : State) (len : Nat), dataLength i = some len →
    (len ≠ 0 ∧ 4096 < s.index.toNat + len → exec i s = .next (s.faulted .addressFault (encode i) (max s.index.toNat 4096))) ∧
    (¬ (len ≠ 0 ∧ 4096 < s.index.toNat + len) → ∃ t, exec i s = .next t ∧ t.fault = s.fault)) ∧
  (∀ (i : Instr) (s t : State), accessesMemory i = false → exec i s = .next t →
    ∀ r, t.fault = some r → r.code = .addressFault → s.fault = some r)

/-! ### Display -/

/-- `CLS` (R191): every cell off, `DIRTY` set, nothing else but `PC`. That an already clear display sets `DIRTY` too is decision D19 (log
entry 12).
The opcode numbers are the spec's decision D11 (log entry 1). -/
def Obligations.ClsTurnsEveryCellOff : Prop :=
  EncodedAs 0x00E0 0xF0FF (fun w => .cls (xBits w)) ∧
  ∀ (x : Nibble) (s : State),
    ∃ t, exec (.cls x) s = .next t ∧ t = { s with fb := t.fb, dirty := true, pc := s.pc + 2 } ∧
      ∀ p : Pixel, t.fb.cell p = false

/-- `DRW Vx, Vy, n` (R192, R194, R195): exactly the cells under set sprite bits are turned over, VF says whether one of them was on; out of
range, nothing but the fault. Bit 7 as the leftmost pixel, the coordinates read before VF is written (D18) and `DIRTY` set on every draw
(D19) are the spec's decisions (log entries 9 and 12).
The opcode numbers are the spec's decision D11 (log entry 1). -/
def Obligations.DrwTogglesTheSpritesCells : Prop :=
  EncodedAs 0xD000 0xF000 (fun w => .drw (xReg w) (yReg w) (nHeight w)) ∧
  (∀ (x y : RegIdx) (n : Height) (s : State), (n.val = 0 ∨ s.index.toNat + n.val ≤ 4096) →
    ∃ t, exec (.drw x y n) s = .next t ∧ t = { s with v := t.v, fb := t.fb, dirty := true, pc := s.pc + 2 } ∧
      (∀ p : Pixel, (t.fb.cell p = true ↔ (s.fb.cell p = true ↔ ¬ s.spriteCovers x y n p))) ∧
      ((∃ p, s.spriteCovers x y n p ∧ s.fb.cell p = true) → t.reg 15 = 1) ∧
      ((¬ ∃ p, s.spriteCovers x y n p ∧ s.fb.cell p = true) → t.reg 15 = 0) ∧
      ∀ k, k ≠ 15 → t.reg k = s.reg k) ∧
  (∀ (x y : RegIdx) (n : Height) (s : State), n.val ≠ 0 → 4096 < s.index.toNat + n.val →
    exec (.drw x y n) s = .next (s.faulted .addressFault (encode (.drw x y n)) (max s.index.toNat 4096)))

/-- Drawing the same sprite twice at the same coordinates restores the framebuffer, and the second draw's VF says whether a cell under the
sprite was on before it (R196 (a) and (b)). `u` is any state with the framebuffer the first draw left and the same sprite and
coordinates. The bit order and the coordinates read before VF is written are decision D18 (log entry 9). -/
def Obligations.DrawingTwiceRestoresTheDisplay : Prop :=
  ∀ (x y : RegIdx) (n : Height) (s u : State), (n.val = 0 ∨ s.index.toNat + n.val ≤ 4096) →
    u.index = s.index → (∀ a, u.mem.read a = s.mem.read a) → u.reg x = s.reg x → u.reg y = s.reg y →
    ∃ t, exec (.drw x y n) s = .next t ∧
      (u.fb = t.fb → ∃ r, exec (.drw x y n) u = .next r ∧ r.fb = s.fb ∧
        (r.reg 15 = 1 ↔ ∃ p, s.spriteCovers x y n p ∧ u.fb.cell p = true))

/-- The host's side of the display (R197): the reads answer what the state holds and change nothing, `ClearDirty` clears the flag and
nothing else, and no operation but a step and `Reset` changes a cell. -/
def Obligations.HostReadsTheDisplay : Prop :=
  (∀ (p : Pixel) (s : State), perform (.readFB p) s = .next (s, .cell (s.fb.cell p))) ∧
  (∀ s : State, perform .readDirty s = .next (s, .dirty s.dirty)) ∧
  (∀ s : State, perform .clearDirty s = .next ({ s with dirty := false }, .done)) ∧
  (∀ (op : HostOp) (s t : State) (a : Response), perform op s = .next (t, a) →
    t.fb = s.fb ∨ op = .reset ∨ ∃ keys, op = .step keys)

/-! ### Timers and keys -/

/-- `SKP` and `SKNP` (R210, R211): one read of one cell of the latch. The fault on an index above 15 is the spec's decision D17 (log entry
11).
The opcode numbers are the spec's decision D11 (log entry 1). -/
def Obligations.KeySkipsTestOneKey : Prop :=
  EncodedAs 0xE09E 0xF0FF (fun w => .skp (xReg w)) ∧ EncodedAs 0xE0A1 0xF0FF (fun w => .sknp (xReg w)) ∧
  (∀ (x : RegIdx) (k : Fin 16) (s : State), (s.reg x).toNat = k.val →
    exec (.skp x) s = .next { s with pc := if s.keys[k] = true then s.pc + 4 else s.pc + 2 } ∧
    exec (.sknp x) s = .next { s with pc := if s.keys[k] = false then s.pc + 4 else s.pc + 2 }) ∧
  (∀ (x : RegIdx) (s : State), 15 < (s.reg x).toNat →
    exec (.skp x) s = .next (s.faulted .keyIndexFault (encode (.skp x)) (s.reg x).toNat) ∧
    exec (.sknp x) s = .next (s.faulted .keyIndexFault (encode (.sknp x)) (s.reg x).toNat))

/-- `LD Vx, DT` (R212), and what a read gives after any number of ticks: the value held, less the ticks, floored at 0.
The opcode numbers are the spec's decision D11 (log entry 1). -/
def Obligations.LdVxDtReadsTheTimer : Prop :=
  EncodedAs 0xF007 0xF0FF (fun w => .ldVxDt (xReg w)) ∧
  (∀ (x : RegIdx) (s : State),
    ∃ t, exec (.ldVxDt x) s = .next t ∧ t = { s with v := t.v, pc := s.pc + 2 } ∧
      ∀ k, t.reg k = if k = x then s.dt else s.reg k) ∧
  (∀ (ticks : Nat) (x : RegIdx) (s : State),
    ∃ t u, performAll (List.replicate ticks .tickDelay) s = .next t ∧ exec (.ldVxDt x) t = .next u ∧
      (u.reg x).toNat = s.dt.toNat - ticks)

/-- `LD DT, Vx` and `LD ST, Vx` (R214, R215).
The opcode numbers are the spec's decision D11 (log entry 1). -/
def Obligations.TimersAreSet : Prop :=
  EncodedAs 0xF015 0xF0FF (fun w => .ldDtVx (xReg w)) ∧ EncodedAs 0xF018 0xF0FF (fun w => .ldStVx (xReg w)) ∧
  ∀ (x : RegIdx) (s : State),
    exec (.ldDtVx x) s = .next { s with dt := s.reg x, pc := s.pc + 2 } ∧
    exec (.ldStVx x) s = .next { s with st := s.reg x, pc := s.pc + 2 }

/-- `LD Vx, K` (R213): with a key pressed the least one is stored; with none nothing changes at all. Level-sensitive and lowest index are
the spec's decision D16 (log entry 11).
The opcode numbers are the spec's decision D11 (log entry 1). -/
def Obligations.KeyWaitStoresTheLowestKey : Prop :=
  EncodedAs 0xF00A 0xF0FF (fun w => .ldVxK (xReg w)) ∧
  (∀ (x : RegIdx) (k : Fin 16) (s : State), s.keys[k] = true → (∀ j : Fin 16, j < k → s.keys[j] = false) →
    ∃ t, exec (.ldVxK x) s = .next t ∧ t = { s with v := t.v, pc := s.pc + 2 } ∧
      (t.reg x).toNat = k.val ∧ ∀ j, j ≠ x → t.reg j = s.reg j) ∧
  (∀ (x : RegIdx) (s : State), (∀ k : Fin 16, s.keys[k] = false) → exec (.ldVxK x) s = .next s)

/-- An unsatisfied key-wait, stepped any number of times, answers "not satisfied" every time and leaves the whole state as it was (R213
(a), U9, example E11). -/
def Obligations.UnsatisfiedKeyWaitNeverMoves : Prop :=
  ∀ (n : Nat) (x : RegIdx) (w : Word) (s : State), s.fault = none → s.fetch = .ok w → decode w = .ok (.ldVxK x) →
    (∀ k : Fin 16, s.keys[k] = false) →
    Host.Core.run core n s = .next s ∧ report s = .waitingForKey

/-- `TickDelay` and `TickSound` (R218, R219): down by exactly 1 with a floor of 0, nothing else, and in every state, a halted one too,
which is the spec's decision D29 (log entry 18). -/
def Obligations.TicksCountDownToZero : Prop :=
  ∀ s : State,
    (∃ t, perform .tickDelay s = .next (t, .done) ∧ t = { s with dt := t.dt } ∧ t.dt.toNat = s.dt.toNat - 1) ∧
    (∃ t, perform .tickSound s = .next (t, .done) ∧ t = { s with st := t.st } ∧ t.st.toNat = s.st.toNat - 1)

/-! ### Fatal conditions and the outcome of a step -/

/-- Every step of a running core answers a next state, and its outcome is one of three (R105): `Retired`, the instruction having run with no
fatal condition; `WaitingForKey`, key-wait with no key pressed and the state unchanged; `Fault(code)`, the state unchanged but for the
record. The host operation `Step` on a running core is that step of the state with the latch holding the keys presented, and answers its
outcome (R36, R100). -/
def Obligations.StepOutcomes : Prop :=
  (∀ s : State, s.fault = none →
    ∃ t, step s = .next t ∧
      ((report s = .retired ∧ s.waiting = false ∧ t.fault = none ∧
          ∃ w i, s.fetch = .ok w ∧ decode w = .ok i ∧ exec i s = .next t) ∨
       (report s = .waitingForKey ∧ t = s ∧ (∀ k : Fin 16, s.keys[k] = false) ∧
          ∃ w x, s.fetch = .ok w ∧ decode w = .ok (.ldVxK x)) ∨
       (∃ r, report s = .fault r.code ∧ t = { s with fault := some r }))) ∧
  (∀ (s : State) (keys : Keys), s.fault = none →
    ∃ t, step { s with keys := keys } = .next t ∧
      perform (.step keys) s = .next (t, .stepped (report { s with keys := keys })))

/-- Fault entry is precise (R236): a step that ends with a fatal condition has changed nothing but `FAULT`, and the record holds the address
of the offending instruction and its word, or 0 when the fetch faulted. Preciseness and the recorded `pc` are the spec's decision D22
(log entry 14). -/
def Obligations.FaultsArePrecise : Prop :=
  ∀ (s t : State) (r : FaultRecord), s.fault = none → step s = .next t → t.fault = some r →
    t = { s with fault := some r } ∧ r.pc = s.pc ∧
    ((r.word = 0 ∧ ∃ a, s.fetch = .error a) ∨ s.fetch = .ok r.word) ∧ r.explains s

/-- Which instruction raises which condition, when, and with which `info` (R230); no other instruction can fault. The numbers of the codes
are the spec's decision D20. -/
def Obligations.OnlyTheListedInstructionsFault : Prop :=
  (∀ (i : Instr) (s t : State) (r : FaultRecord), s.fault = none → exec i s = .next t → t.fault = some r →
    (r.code = .stackOverflow ∧ s.sp = 16 ∧ r.info = 0 ∧ ∃ nnn, i = .call nnn) ∨
    (r.code = .stackUnderflow ∧ s.sp = 0 ∧ r.info = 0 ∧ ∃ x, i = .ret x) ∨
    (r.code = .addressFault ∧ r.info = max s.index.toNat 4096 ∧
      ∃ len, dataLength i = some len ∧ len ≠ 0 ∧ 4096 < s.index.toNat + len) ∨
    (r.code = .keyIndexFault ∧ ∃ x, (i = .skp x ∨ i = .sknp x) ∧ 15 < (s.reg x).toNat ∧ r.info = (s.reg x).toNat)) ∧
  FaultCode.number .invalidOpcode = 1 ∧ FaultCode.number .stackOverflow = 2 ∧ FaultCode.number .stackUnderflow = 3 ∧
  FaultCode.number .addressFault = 4 ∧ FaultCode.number .keyIndexFault = 5

/-- No return and no nesting (R238): once `FAULT` is set every later `Step` returns `Halted` and changes nothing (the latch contents the host
presents with it are the host's), only `Reset` clears `FAULT`, and the other operations still work. -/
def Obligations.HaltedUntilReset : Prop :=
  ∀ (s : State) (r : FaultRecord), s.fault = some r →
    (∀ keys : Keys, perform (.step keys) s = .next ({ s with keys := keys }, .stepped .halted)) ∧
    (∀ (op : HostOp) (t : State) (a : Response), perform op s = .next (t, a) → t.fault = some r ∨ op = .reset) ∧
    (∃ t, perform .reset s = .next (t, .done) ∧ t.fault = none) ∧
    perform .tickDelay s = .next (s.tickDelay, .done) ∧ perform .tickSound s = .next (s.tickSound, .done) ∧
    (∀ p : Pixel, perform (.readFB p) s = .next (s, .cell (s.fb.cell p))) ∧
    perform .readDirty s = .next (s, .dirty s.dirty) ∧ perform .clearDirty s = .next (s.clearDirty, .done) ∧
    perform .readFault s = .next (s, .fault (some r))

/-- The model's own form of a halted core: `step` answers no next state, under a name that carries the record, exactly when `FAULT` is set;
a run stops there. THE MODEL'S CHOICE (log entry 14): the rule R106 says that such a step does nothing and returns `Halted`. -/
def Obligations.StepStopsExactlyWhenHalted : Prop :=
  (∀ (s : State) (r : FaultRecord), step s = .fault (.halted r) ↔ s.fault = some r) ∧
  (∀ (s : State) (r : Refusal), step s ≠ .refused r) ∧
  (∀ (s : State) (r : FaultRecord) (n : Nat), s.fault = some r → Host.Core.run core (n + 1) s = .fault (.halted r))

/-! ### Reset and boot -/

/-- The values after reset (R270), with the 80 bytes of the font (R272) written out. `PC` (D8), the font's contents (D5) and the latch (D32) are the spec's decisions (log entries 5, 8 and
15); `draws` is the model's own. -/
def Obligations.ResetValues : Prop :=
  (∀ k, State.reset.reg k = 0) ∧ State.reset.index = 0 ∧ State.reset.pc = 0x200 ∧ State.reset.sp = 0 ∧
  (∀ k : Fin 16, State.reset.stack[k] = 0) ∧ (∀ p : Pixel, State.reset.fb.cell p = false) ∧ State.reset.dirty = false ∧
  State.reset.dt = 0 ∧ State.reset.st = 0 ∧ State.reset.fault = none ∧ (∀ k : Fin 16, State.reset.keys[k] = false) ∧
  (∀ a : Nat, 80 ≤ a → State.reset.mem.read a = 0) ∧
  (List.range 80).map State.reset.mem.read =
     [0xF0, 0x90, 0x90, 0x90, 0xF0,  0x20, 0x60, 0x20, 0x20, 0x70] ++
     [0xF0, 0x10, 0xF0, 0x80, 0xF0,  0xF0, 0x10, 0xF0, 0x10, 0xF0] ++
     [0x90, 0x90, 0xF0, 0x10, 0x10,  0xF0, 0x80, 0xF0, 0x10, 0xF0] ++
     [0xF0, 0x80, 0xF0, 0x90, 0xF0,  0xF0, 0x10, 0x20, 0x40, 0x40] ++
     [0xF0, 0x90, 0xF0, 0x90, 0xF0,  0xF0, 0x90, 0xF0, 0x10, 0xF0] ++
     [0xF0, 0x90, 0xF0, 0x90, 0x90,  0xE0, 0x90, 0xE0, 0x90, 0xE0] ++
     [0xF0, 0x80, 0x80, 0x80, 0xF0,  0xE0, 0x90, 0x90, 0x90, 0xE0] ++
     [0xF0, 0x80, 0xF0, 0x80, 0xF0,  0xF0, 0x80, 0xF0, 0x80, 0x80]

/-- `Reset` (R271): whatever the state was, a set `FAULT` included, every element takes its reset value; the latch stays the host's (D32)
and the model's counter of draws goes on. -/
def Obligations.ResetFromEveryState : Prop :=
  ∀ s : State, perform .reset s = .next ({ State.reset with keys := s.keys, draws := s.draws }, .done)

/-- `LoadImage` (R273, R274): in the state `Reset` leaves, an image that fits is copied verbatim from 0x200 on and nothing else changes; one
that does not is refused whole (D27, log entry 17); anywhere else the operation has no meaning. -/
def Obligations.LoadImageCopiesOrRefuses : Prop :=
  (∀ (s : State) (img : List Byte), s = s.resetOp → 0x200 + img.length ≤ 4096 →
    ∃ t, perform (.loadImage img) s = .next (t, .done) ∧ t = { s with mem := t.mem } ∧
      (∀ (j : Nat) (h : j < img.length), t.mem.read (0x200 + j) = img[j]) ∧
      ∀ a, (a < 0x200 ∨ 0x200 + img.length ≤ a) → t.mem.read a = s.mem.read a) ∧
  (∀ (s : State) (img : List Byte), s = s.resetOp → 4096 < 0x200 + img.length →
    perform (.loadImage img) s = .refused (.imageTooLong img.length)) ∧
  (∀ (s : State) (img : List Byte), s ≠ s.resetOp → perform (.loadImage img) s = .refused .loadAfterStart)

/-- Boot (R273, R274): after `Reset` and `LoadImage`, from any state at all, the first step fetches the first two bytes of the image, the
first the high byte; an empty image makes it fetch 0x0000 and take `InvalidOpcode`. -/
def Obligations.BootFetchesTheImage : Prop :=
  (∀ (s : State) (b0 b1 : Byte) (rest : List Byte), 0x200 + (rest.length + 2) ≤ 4096 →
    ∃ t, performAll [.reset, .loadImage (b0 :: b1 :: rest)] s = .next t ∧ t.fault = none ∧ t.pc = 0x200 ∧
      t.fetch = .ok (b0 ++ b1)) ∧
  (∀ s : State, ∃ t, performAll [.reset, .loadImage []] s = .next t ∧ step t = .next (t.faulted .invalidOpcode 0x0000 0))

/-! ### The whole machine -/

/-- Which instruction may write which state (the "written by" column of R37): everything an instruction is not listed for is unchanged, but
for `PC`, which every instruction writes. `FAULT` is written only by those that can fault (R230). -/
def Obligations.OnlyTheListedInstructionsWrite : Prop :=
  ∀ (i : Instr) (s t : State), exec i s = .next t →
    (∀ k : RegIdx, destination i k = false → (k = 15 → writesFlag i = false) → t.reg k = s.reg k) ∧
    (t.index = s.index ∨ (∃ nnn, i = .ldI nnn) ∨ (∃ x, i = .addIVx x ∨ i = .ldFVx x)) ∧
    (t.sp = s.sp ∨ (∃ nnn, i = .call nnn) ∨ (∃ x, i = .ret x)) ∧
    (t.stack = s.stack ∨ ∃ nnn, i = .call nnn) ∧
    (t.mem = s.mem ∨ ∃ x, i = .ldBVx x ∨ i = .ldMemVx x) ∧
    (t.fb = s.fb ∧ t.dirty = s.dirty ∨ (∃ x, i = .cls x) ∨ (∃ x y n, i = .drw x y n)) ∧
    (t.dt = s.dt ∨ ∃ x, i = .ldDtVx x) ∧ (t.st = s.st ∨ ∃ x, i = .ldStVx x) ∧ t.keys = s.keys ∧
    (t.draws = s.draws ∨ ∃ x kk, i = .rnd x kk) ∧
    (t.fault = s.fault ∨ accessesMemory i = true ∨ (∃ nnn, i = .call nnn) ∨ (∃ x, i = .ret x) ∨
      ∃ x, i = .skp x ∨ i = .sknp x)

/-- VF as a side effect (R22): the seven instructions that write it leave 0 or 1 in it when they complete, whatever their destination; every
other one leaves VF alone unless it names it as its destination. -/
def Obligations.VfIsWrittenBySevenInstructions : Prop :=
  ∀ (i : Instr) (s t : State), exec i s = .next t → t.fault = s.fault →
    (writesFlag i = true → s.fault = none → t.reg 15 = 0 ∨ t.reg 15 = 1) ∧
    (writesFlag i = false → destination i 15 = false → t.reg 15 = s.reg 15)

/-- What an instruction cannot learn (the "read by" column of R37): nothing reads `DIRTY` or `ST`; only `LD Vx, DT` reads `DT`; only the two
key skips and key-wait read the latch; only a draw reads the display; only call and return read the stack and its pointer; only a draw
and the block load read memory; only the four memory instructions and `ADD I` read `I`. Two runs that differ only there end in states
that differ only there. -/
def Obligations.InstructionsDoNotReadUnlistedState : Prop :=
  ∀ (i : Instr) (s t : State), exec i s = .next t →
    (∀ d : Bool, ∃ u, exec i { s with dirty := d } = .next u ∧ u = { t with dirty := u.dirty }) ∧
    (∀ b : Byte, ∃ u, exec i { s with st := b } = .next u ∧ u = { t with st := u.st }) ∧
    (∀ b : Byte, (∀ x, i ≠ .ldVxDt x) → ∃ u, exec i { s with dt := b } = .next u ∧ u = { t with dt := u.dt }) ∧
    (∀ h : Keys, (∀ x, i ≠ .skp x ∧ i ≠ .sknp x ∧ i ≠ .ldVxK x) →
      exec i { s with keys := h } = .next { t with keys := h }) ∧
    (∀ g : Grid, (∀ x y n, i ≠ .drw x y n) → ∃ u, exec i { s with fb := g } = .next u ∧ u = { t with fb := u.fb }) ∧
    (∀ (k : Fin 17) (c : Vector Word 16), (∀ nnn, i ≠ .call nnn) → (∀ x, i ≠ .ret x) →
      exec i { s with sp := k, stack := c } = .next { t with sp := k, stack := c }) ∧
    (∀ m : Memory, (∀ x y n, i ≠ .drw x y n) → (∀ x, i ≠ .ldVxMem x) →
      ∃ u, exec i { s with mem := m } = .next u ∧ u = { t with mem := u.mem }) ∧
    (∀ a : Word, accessesMemory i = false → (∀ x, i ≠ .addIVx x) →
      ∃ u, exec i { s with index := a } = .next u ∧ u = { t with index := u.index })

/-- The invariant holds after reset: memory canonical, `PC` and every return address within their bounds, no record in `FAULT`. -/
def Obligations.InvariantHoldsAtReset : Prop :=
  State.reset.Inv

/-- Every step keeps the invariant, from every state that has it (R24's bound 0x10FE on `PC` is the spec's derivation; R50, R236). -/
def Obligations.StepKeepsTheInvariant : Prop :=
  ∀ s t : State, s.Inv → step s = .next t → t.Inv

/-- Every operation of the host keeps the invariant, so it holds after every sequence of operations from reset: after every program, with
any keys, any random bytes and any placement of the ticks (R24, R36, R276). -/
def Obligations.EveryHostRunKeepsTheInvariant : Prop :=
  (∀ (op : HostOp) (s t : State) (a : Response), s.Inv → perform op s = .next (t, a) → t.Inv) ∧
  (∀ (ops : List HostOp) (t : State), performAll ops State.reset = .next t → t.Inv)

/-- No instruction stops the machine: every one of the 34 answers a next state in every state (R105, R239). -/
def Obligations.EveryInstructionAnswers : Prop :=
  ∀ (i : Instr) (s : State), ∃ t, exec i s = .next t ∧
    (t.fault = s.fault ∨ ∃ code info, t = s.faulted code (encode i) info)
end

