-- ==== Sys2Proof/Laws/Decode.lean ====
section
/-! SUPPORT. The fields of a word and of a packed word as numbers (R71, R72), and what the three masks of R76 select. -/

namespace Sys2Proof

/-! ### Fields as numbers -/

theorem opField_toNat (w : Word) : (opField w).toNat = w.toNat / 4096 := by
  have := w.isLt
  simp [opField, BitVec.extractLsb'_toNat, Nat.shiftRight_eq_div_pow]
  omega

theorem xBits_toNat (w : Word) : (xBits w).toNat = w.toNat / 256 % 16 := by
  simp [xBits, BitVec.extractLsb'_toNat, Nat.shiftRight_eq_div_pow]

theorem yBits_toNat (w : Word) : (yBits w).toNat = w.toNat / 16 % 16 := by
  simp [yBits, BitVec.extractLsb'_toNat, Nat.shiftRight_eq_div_pow]

theorem nBits_toNat (w : Word) : (nBits w).toNat = w.toNat % 16 := by
  simp [nBits, BitVec.extractLsb'_toNat]

theorem kkField_toNat (w : Word) : (kkField w).toNat = w.toNat % 256 := by
  simp [kkField, BitVec.extractLsb'_toNat]

theorem nnnField_toNat (w : Word) : (nnnField w).toNat = w.toNat % 4096 := by
  simp [nnnField, BitVec.extractLsb'_toNat]

theorem xReg_val (w : Word) : (xReg w).val = w.toNat / 256 % 16 := xBits_toNat w

theorem yReg_val (w : Word) : (yReg w).val = w.toNat / 16 % 16 := yBits_toNat w

theorem nHeight_val (w : Word) : (nHeight w).val = w.toNat % 16 := nBits_toNat w

/-! ### Packed words as numbers -/

theorem packNnn_toNat (op : Nat) (nnn : Addr12) (h : op < 16) :
    (packNnn op nnn).toNat = op * 4096 + nnn.toNat := by
  have := nnn.isLt
  simp [packNnn]
  omega

theorem packXkk_toNat (op x kk : Nat) (h : op < 16) (hx : x < 16) (hk : kk < 256) :
    (packXkk op x kk).toNat = op * 4096 + x * 256 + kk := by
  simp [packXkk]
  omega

theorem packXyn_toNat (op x y n : Nat) (h : op < 16) (hx : x < 16) (hy : y < 16) (hn : n < 16) :
    (packXyn op x y n).toNat = op * 4096 + x * 256 + y * 16 + n := by
  simp [packXyn]
  omega

/-! ### The masks of the opcode map -/

/-- Masking keeps the bits where the mask is one. -/
theorem and_eq_iff_bits (w m v : Word) :
    w &&& m = v ↔ ∀ i < 16, (w.getLsbD i && m.getLsbD i) = v.getLsbD i := by
  constructor
  · intro h i _
    rw [← h, BitVec.getLsbD_and]
  · intro h
    apply BitVec.eq_of_getLsbD_eq
    intro i hi
    rw [BitVec.getLsbD_and]
    exact h i hi

/-- A field equals a constant when each of its bits does. -/
theorem extract_eq_iff_bits (w : Word) (start n : Nat) (v : BitVec n) :
    w.extractLsb' start n = v ↔ ∀ i < n, w.getLsbD (start + i) = v.getLsbD i := by
  constructor
  · intro h i hi
    rw [← h, BitVec.getLsbD_extractLsb']
    simp [hi]
  · intro h
    apply BitVec.eq_of_getLsbD_eq
    intro i hi
    rw [BitVec.getLsbD_extractLsb', ← h i hi]
    simp [hi]

/-- Mask 0xF000: the primary selector alone (R74). -/
theorem mask_F000 (w : Word) (o : Nibble) :
    w &&& 0xF000#16 = (o ++ 0#12) ↔ opField w = o := by
  rw [and_eq_iff_bits, opField, extract_eq_iff_bits]
  have hm : ∀ i < 16, (0xF000#16).getLsbD i = decide (12 ≤ i) := by decide
  constructor
  · intro h i hi
    have := h (12 + i) (by omega)
    rw [hm _ (by omega), BitVec.getLsbD_append] at this
    simpa using this
  · intro h i hi
    rw [hm i hi, BitVec.getLsbD_append]
    by_cases hlt : i < 12
    · simp [hlt, show ¬ 12 ≤ i by omega]
    · have := h (i - 12) (by omega)
      rw [show 12 + (i - 12) = i by omega] at this
      simp [hlt, show 12 ≤ i by omega, this]

/-- Mask 0xF00F: the primary selector and the low nibble (R75). -/
theorem mask_F00F (w : Word) (o k : Nibble) :
    w &&& 0xF00F#16 = (o ++ 0#8 ++ k) ↔ opField w = o ∧ nBits w = k := by
  rw [and_eq_iff_bits, opField, nBits, extract_eq_iff_bits, extract_eq_iff_bits]
  have hm : ∀ i < 16, (0xF00F#16).getLsbD i = decide (12 ≤ i ∨ i < 4) := by decide
  constructor
  · intro h
    constructor
    · intro i hi
      have := h (12 + i) (by omega)
      rw [hm _ (by omega), BitVec.getLsbD_append, BitVec.getLsbD_append] at this
      simpa [show ¬ 12 + i < 4 by omega, show ¬ 12 + i - 4 < 8 by omega, show 12 + i - 4 - 8 = i by omega] using this
    · intro i hi
      have := h i (by omega)
      rw [hm _ (by omega), BitVec.getLsbD_append] at this
      simpa [hi] using this
  · rintro ⟨h, h'⟩ i hi
    rw [hm i hi, BitVec.getLsbD_append, BitVec.getLsbD_append]
    by_cases h4 : i < 4
    · have := h' i h4
      rw [Nat.zero_add] at this
      simp [h4, this]
    · by_cases h12 : i < 12
      · simp [h4, show ¬ 12 ≤ i by omega, show i - 4 < 8 by omega]
      · have := h (i - 12) (by omega)
        rw [show 12 + (i - 12) = i by omega] at this
        simp [h4, show 12 ≤ i by omega, show ¬ i - 4 < 8 by omega, show i - 4 - 8 = i - 12 by omega, this]

/-- Mask 0xF0FF: the primary selector and the low byte (R75). -/
theorem mask_F0FF (w : Word) (o : Nibble) (k : Byte) :
    w &&& 0xF0FF#16 = (o ++ 0#4 ++ k) ↔ opField w = o ∧ kkField w = k := by
  rw [and_eq_iff_bits, opField, kkField, extract_eq_iff_bits, extract_eq_iff_bits]
  have hm : ∀ i < 16, (0xF0FF#16).getLsbD i = decide (12 ≤ i ∨ i < 8) := by decide
  constructor
  · intro h
    constructor
    · intro i hi
      have := h (12 + i) (by omega)
      rw [hm _ (by omega), BitVec.getLsbD_append, BitVec.getLsbD_append] at this
      simpa [show ¬ 12 + i < 8 by omega, show ¬ 12 + i - 8 < 4 by omega, show 12 + i - 8 - 4 = i by omega] using this
    · intro i hi
      have := h i (by omega)
      rw [hm _ (by omega), BitVec.getLsbD_append] at this
      simpa [hi] using this
  · rintro ⟨h, h'⟩ i hi
    rw [hm i hi, BitVec.getLsbD_append, BitVec.getLsbD_append]
    by_cases h8 : i < 8
    · have := h' i h8
      rw [Nat.zero_add] at this
      simp [h8, this]
    · by_cases h12 : i < 12
      · simp [h8, show ¬ 12 ≤ i by omega, show i - 8 < 4 by omega]
      · have := h (i - 12) (by omega)
        rw [show 12 + (i - 12) = i by omega] at this
        simp [h8, show 12 ≤ i by omega, show ¬ i - 8 < 4 by omega, show i - 8 - 4 = i - 12 by omega, this]

/-- On the machine modelled every word that selects an instruction decodes to it: `STRICT_DECODE` is false (R79). -/
theorem decode_of_select {w : Word} {i : Instr} (h : select w = some i) : decode w = .ok i := by
  simp [decode, decodeWith, h, Instr.wellFormedWith]

/-- A word that selects no instruction is invalid (R78). -/
theorem decode_of_select_none {w : Word} (h : select w = none) : decode w = .error (.invalidOpcode w) := by
  simp [decode, decodeWith, h]

/-- What a decoding says of the dispatcher's selection. -/
theorem select_of_decode {w : Word} {i : Instr} (h : decode w = .ok i) : select w = some i := by
  cases hs : select w with
  | none => rw [decode_of_select_none hs] at h; cases h
  | some j => rw [decode_of_select hs] at h; cases h; rfl

end Sys2Proof
end

