-- ==== Sys2Proof/Laws/State.lean ====
section
/-! SUPPORT. What each update of the state does to each field: one lemma per field per update, so that no later proof unfolds a record
update; and the reads of a register after a write. -/

namespace Sys2Proof.Machine

variable (s : State)

/-! ### `setReg` -/

@[simp] theorem State.setReg_v (x : RegIdx) (b : Byte) : (s.setReg x b).v = s.v.set x b := rfl
@[simp] theorem State.setReg_index (x : RegIdx) (b : Byte) : (s.setReg x b).index = s.index := rfl
@[simp] theorem State.setReg_pc (x : RegIdx) (b : Byte) : (s.setReg x b).pc = s.pc := rfl
@[simp] theorem State.setReg_sp (x : RegIdx) (b : Byte) : (s.setReg x b).sp = s.sp := rfl
@[simp] theorem State.setReg_stack (x : RegIdx) (b : Byte) : (s.setReg x b).stack = s.stack := rfl
@[simp] theorem State.setReg_mem (x : RegIdx) (b : Byte) : (s.setReg x b).mem = s.mem := rfl
@[simp] theorem State.setReg_fb (x : RegIdx) (b : Byte) : (s.setReg x b).fb = s.fb := rfl
@[simp] theorem State.setReg_dirty (x : RegIdx) (b : Byte) : (s.setReg x b).dirty = s.dirty := rfl
@[simp] theorem State.setReg_dt (x : RegIdx) (b : Byte) : (s.setReg x b).dt = s.dt := rfl
@[simp] theorem State.setReg_st (x : RegIdx) (b : Byte) : (s.setReg x b).st = s.st := rfl
@[simp] theorem State.setReg_fault (x : RegIdx) (b : Byte) : (s.setReg x b).fault = s.fault := rfl
@[simp] theorem State.setReg_keys (x : RegIdx) (b : Byte) : (s.setReg x b).keys = s.keys := rfl
@[simp] theorem State.setReg_draws (x : RegIdx) (b : Byte) : (s.setReg x b).draws = s.draws := rfl

/-! ### `setIndex` -/

@[simp] theorem State.setIndex_v (a : Word) : (s.setIndex a).v = s.v := rfl
@[simp] theorem State.setIndex_index (a : Word) : (s.setIndex a).index = a := rfl
@[simp] theorem State.setIndex_pc (a : Word) : (s.setIndex a).pc = s.pc := rfl
@[simp] theorem State.setIndex_sp (a : Word) : (s.setIndex a).sp = s.sp := rfl
@[simp] theorem State.setIndex_stack (a : Word) : (s.setIndex a).stack = s.stack := rfl
@[simp] theorem State.setIndex_mem (a : Word) : (s.setIndex a).mem = s.mem := rfl
@[simp] theorem State.setIndex_fb (a : Word) : (s.setIndex a).fb = s.fb := rfl
@[simp] theorem State.setIndex_dirty (a : Word) : (s.setIndex a).dirty = s.dirty := rfl
@[simp] theorem State.setIndex_dt (a : Word) : (s.setIndex a).dt = s.dt := rfl
@[simp] theorem State.setIndex_st (a : Word) : (s.setIndex a).st = s.st := rfl
@[simp] theorem State.setIndex_fault (a : Word) : (s.setIndex a).fault = s.fault := rfl
@[simp] theorem State.setIndex_keys (a : Word) : (s.setIndex a).keys = s.keys := rfl
@[simp] theorem State.setIndex_draws (a : Word) : (s.setIndex a).draws = s.draws := rfl

/-! ### `setPc` -/

@[simp] theorem State.setPc_v (a : Word) : (s.setPc a).v = s.v := rfl
@[simp] theorem State.setPc_index (a : Word) : (s.setPc a).index = s.index := rfl
@[simp] theorem State.setPc_pc (a : Word) : (s.setPc a).pc = a := rfl
@[simp] theorem State.setPc_sp (a : Word) : (s.setPc a).sp = s.sp := rfl
@[simp] theorem State.setPc_stack (a : Word) : (s.setPc a).stack = s.stack := rfl
@[simp] theorem State.setPc_mem (a : Word) : (s.setPc a).mem = s.mem := rfl
@[simp] theorem State.setPc_fb (a : Word) : (s.setPc a).fb = s.fb := rfl
@[simp] theorem State.setPc_dirty (a : Word) : (s.setPc a).dirty = s.dirty := rfl
@[simp] theorem State.setPc_dt (a : Word) : (s.setPc a).dt = s.dt := rfl
@[simp] theorem State.setPc_st (a : Word) : (s.setPc a).st = s.st := rfl
@[simp] theorem State.setPc_fault (a : Word) : (s.setPc a).fault = s.fault := rfl
@[simp] theorem State.setPc_keys (a : Word) : (s.setPc a).keys = s.keys := rfl
@[simp] theorem State.setPc_draws (a : Word) : (s.setPc a).draws = s.draws := rfl

/-! ### `advance` -/

@[simp] theorem State.advance_v : (s.advance).v = s.v := rfl
@[simp] theorem State.advance_index : (s.advance).index = s.index := rfl
@[simp] theorem State.advance_pc : (s.advance).pc = s.pc + 2 := rfl
@[simp] theorem State.advance_sp : (s.advance).sp = s.sp := rfl
@[simp] theorem State.advance_stack : (s.advance).stack = s.stack := rfl
@[simp] theorem State.advance_mem : (s.advance).mem = s.mem := rfl
@[simp] theorem State.advance_fb : (s.advance).fb = s.fb := rfl
@[simp] theorem State.advance_dirty : (s.advance).dirty = s.dirty := rfl
@[simp] theorem State.advance_dt : (s.advance).dt = s.dt := rfl
@[simp] theorem State.advance_st : (s.advance).st = s.st := rfl
@[simp] theorem State.advance_fault : (s.advance).fault = s.fault := rfl
@[simp] theorem State.advance_keys : (s.advance).keys = s.keys := rfl
@[simp] theorem State.advance_draws : (s.advance).draws = s.draws := rfl

/-! ### `setResultAndFlag` -/

@[simp] theorem State.setResultAndFlag_v (x : RegIdx) (b : Byte) (c : Bool) : (s.setResultAndFlag x b c).v = (s.v.set x b).set VF (flagByte c) := rfl
@[simp] theorem State.setResultAndFlag_index (x : RegIdx) (b : Byte) (c : Bool) : (s.setResultAndFlag x b c).index = s.index := rfl
@[simp] theorem State.setResultAndFlag_pc (x : RegIdx) (b : Byte) (c : Bool) : (s.setResultAndFlag x b c).pc = s.pc := rfl
@[simp] theorem State.setResultAndFlag_sp (x : RegIdx) (b : Byte) (c : Bool) : (s.setResultAndFlag x b c).sp = s.sp := rfl
@[simp] theorem State.setResultAndFlag_stack (x : RegIdx) (b : Byte) (c : Bool) : (s.setResultAndFlag x b c).stack = s.stack := rfl
@[simp] theorem State.setResultAndFlag_mem (x : RegIdx) (b : Byte) (c : Bool) : (s.setResultAndFlag x b c).mem = s.mem := rfl
@[simp] theorem State.setResultAndFlag_fb (x : RegIdx) (b : Byte) (c : Bool) : (s.setResultAndFlag x b c).fb = s.fb := rfl
@[simp] theorem State.setResultAndFlag_dirty (x : RegIdx) (b : Byte) (c : Bool) : (s.setResultAndFlag x b c).dirty = s.dirty := rfl
@[simp] theorem State.setResultAndFlag_dt (x : RegIdx) (b : Byte) (c : Bool) : (s.setResultAndFlag x b c).dt = s.dt := rfl
@[simp] theorem State.setResultAndFlag_st (x : RegIdx) (b : Byte) (c : Bool) : (s.setResultAndFlag x b c).st = s.st := rfl
@[simp] theorem State.setResultAndFlag_fault (x : RegIdx) (b : Byte) (c : Bool) : (s.setResultAndFlag x b c).fault = s.fault := rfl
@[simp] theorem State.setResultAndFlag_keys (x : RegIdx) (b : Byte) (c : Bool) : (s.setResultAndFlag x b c).keys = s.keys := rfl
@[simp] theorem State.setResultAndFlag_draws (x : RegIdx) (b : Byte) (c : Bool) : (s.setResultAndFlag x b c).draws = s.draws := rfl

/-! ### `nextDraw` -/

@[simp] theorem State.nextDraw_v : (s.nextDraw).v = s.v := rfl
@[simp] theorem State.nextDraw_index : (s.nextDraw).index = s.index := rfl
@[simp] theorem State.nextDraw_pc : (s.nextDraw).pc = s.pc := rfl
@[simp] theorem State.nextDraw_sp : (s.nextDraw).sp = s.sp := rfl
@[simp] theorem State.nextDraw_stack : (s.nextDraw).stack = s.stack := rfl
@[simp] theorem State.nextDraw_mem : (s.nextDraw).mem = s.mem := rfl
@[simp] theorem State.nextDraw_fb : (s.nextDraw).fb = s.fb := rfl
@[simp] theorem State.nextDraw_dirty : (s.nextDraw).dirty = s.dirty := rfl
@[simp] theorem State.nextDraw_dt : (s.nextDraw).dt = s.dt := rfl
@[simp] theorem State.nextDraw_st : (s.nextDraw).st = s.st := rfl
@[simp] theorem State.nextDraw_fault : (s.nextDraw).fault = s.fault := rfl
@[simp] theorem State.nextDraw_keys : (s.nextDraw).keys = s.keys := rfl
@[simp] theorem State.nextDraw_draws : (s.nextDraw).draws = s.draws + 1 := rfl

/-! ### `writeKeys` -/

@[simp] theorem State.writeKeys_v (k : Keys) : (s.writeKeys k).v = s.v := rfl
@[simp] theorem State.writeKeys_index (k : Keys) : (s.writeKeys k).index = s.index := rfl
@[simp] theorem State.writeKeys_pc (k : Keys) : (s.writeKeys k).pc = s.pc := rfl
@[simp] theorem State.writeKeys_sp (k : Keys) : (s.writeKeys k).sp = s.sp := rfl
@[simp] theorem State.writeKeys_stack (k : Keys) : (s.writeKeys k).stack = s.stack := rfl
@[simp] theorem State.writeKeys_mem (k : Keys) : (s.writeKeys k).mem = s.mem := rfl
@[simp] theorem State.writeKeys_fb (k : Keys) : (s.writeKeys k).fb = s.fb := rfl
@[simp] theorem State.writeKeys_dirty (k : Keys) : (s.writeKeys k).dirty = s.dirty := rfl
@[simp] theorem State.writeKeys_dt (k : Keys) : (s.writeKeys k).dt = s.dt := rfl
@[simp] theorem State.writeKeys_st (k : Keys) : (s.writeKeys k).st = s.st := rfl
@[simp] theorem State.writeKeys_fault (k : Keys) : (s.writeKeys k).fault = s.fault := rfl
@[simp] theorem State.writeKeys_keys (k : Keys) : (s.writeKeys k).keys = k := rfl
@[simp] theorem State.writeKeys_draws (k : Keys) : (s.writeKeys k).draws = s.draws := rfl

/-! ### `tickDelay` -/

@[simp] theorem State.tickDelay_v : (s.tickDelay).v = s.v := rfl
@[simp] theorem State.tickDelay_index : (s.tickDelay).index = s.index := rfl
@[simp] theorem State.tickDelay_pc : (s.tickDelay).pc = s.pc := rfl
@[simp] theorem State.tickDelay_sp : (s.tickDelay).sp = s.sp := rfl
@[simp] theorem State.tickDelay_stack : (s.tickDelay).stack = s.stack := rfl
@[simp] theorem State.tickDelay_mem : (s.tickDelay).mem = s.mem := rfl
@[simp] theorem State.tickDelay_fb : (s.tickDelay).fb = s.fb := rfl
@[simp] theorem State.tickDelay_dirty : (s.tickDelay).dirty = s.dirty := rfl
@[simp] theorem State.tickDelay_dt : (s.tickDelay).dt = if s.dt = 0 then 0 else s.dt - 1 := rfl
@[simp] theorem State.tickDelay_st : (s.tickDelay).st = s.st := rfl
@[simp] theorem State.tickDelay_fault : (s.tickDelay).fault = s.fault := rfl
@[simp] theorem State.tickDelay_keys : (s.tickDelay).keys = s.keys := rfl
@[simp] theorem State.tickDelay_draws : (s.tickDelay).draws = s.draws := rfl

/-! ### `tickSound` -/

@[simp] theorem State.tickSound_v : (s.tickSound).v = s.v := rfl
@[simp] theorem State.tickSound_index : (s.tickSound).index = s.index := rfl
@[simp] theorem State.tickSound_pc : (s.tickSound).pc = s.pc := rfl
@[simp] theorem State.tickSound_sp : (s.tickSound).sp = s.sp := rfl
@[simp] theorem State.tickSound_stack : (s.tickSound).stack = s.stack := rfl
@[simp] theorem State.tickSound_mem : (s.tickSound).mem = s.mem := rfl
@[simp] theorem State.tickSound_fb : (s.tickSound).fb = s.fb := rfl
@[simp] theorem State.tickSound_dirty : (s.tickSound).dirty = s.dirty := rfl
@[simp] theorem State.tickSound_dt : (s.tickSound).dt = s.dt := rfl
@[simp] theorem State.tickSound_st : (s.tickSound).st = if s.st = 0 then 0 else s.st - 1 := rfl
@[simp] theorem State.tickSound_fault : (s.tickSound).fault = s.fault := rfl
@[simp] theorem State.tickSound_keys : (s.tickSound).keys = s.keys := rfl
@[simp] theorem State.tickSound_draws : (s.tickSound).draws = s.draws := rfl

/-! ### `clearDirty` -/

@[simp] theorem State.clearDirty_v : (s.clearDirty).v = s.v := rfl
@[simp] theorem State.clearDirty_index : (s.clearDirty).index = s.index := rfl
@[simp] theorem State.clearDirty_pc : (s.clearDirty).pc = s.pc := rfl
@[simp] theorem State.clearDirty_sp : (s.clearDirty).sp = s.sp := rfl
@[simp] theorem State.clearDirty_stack : (s.clearDirty).stack = s.stack := rfl
@[simp] theorem State.clearDirty_mem : (s.clearDirty).mem = s.mem := rfl
@[simp] theorem State.clearDirty_fb : (s.clearDirty).fb = s.fb := rfl
@[simp] theorem State.clearDirty_dirty : (s.clearDirty).dirty = false := rfl
@[simp] theorem State.clearDirty_dt : (s.clearDirty).dt = s.dt := rfl
@[simp] theorem State.clearDirty_st : (s.clearDirty).st = s.st := rfl
@[simp] theorem State.clearDirty_fault : (s.clearDirty).fault = s.fault := rfl
@[simp] theorem State.clearDirty_keys : (s.clearDirty).keys = s.keys := rfl
@[simp] theorem State.clearDirty_draws : (s.clearDirty).draws = s.draws := rfl

/-! ### `skipIf` -/

@[simp] theorem State.skipIf_v (c : Bool) : (s.skipIf c).v = s.v := by cases c <;> rfl
@[simp] theorem State.skipIf_index (c : Bool) : (s.skipIf c).index = s.index := by cases c <;> rfl
@[simp] theorem State.skipIf_pc (c : Bool) : (s.skipIf c).pc = if c then s.pc + 4 else s.pc + 2 := by
  cases c
  · rfl
  · simp [State.skipIf, BitVec.add_assoc]
@[simp] theorem State.skipIf_sp (c : Bool) : (s.skipIf c).sp = s.sp := by cases c <;> rfl
@[simp] theorem State.skipIf_stack (c : Bool) : (s.skipIf c).stack = s.stack := by cases c <;> rfl
@[simp] theorem State.skipIf_mem (c : Bool) : (s.skipIf c).mem = s.mem := by cases c <;> rfl
@[simp] theorem State.skipIf_fb (c : Bool) : (s.skipIf c).fb = s.fb := by cases c <;> rfl
@[simp] theorem State.skipIf_dirty (c : Bool) : (s.skipIf c).dirty = s.dirty := by cases c <;> rfl
@[simp] theorem State.skipIf_dt (c : Bool) : (s.skipIf c).dt = s.dt := by cases c <;> rfl
@[simp] theorem State.skipIf_st (c : Bool) : (s.skipIf c).st = s.st := by cases c <;> rfl
@[simp] theorem State.skipIf_fault (c : Bool) : (s.skipIf c).fault = s.fault := by cases c <;> rfl
@[simp] theorem State.skipIf_keys (c : Bool) : (s.skipIf c).keys = s.keys := by cases c <;> rfl
@[simp] theorem State.skipIf_draws (c : Bool) : (s.skipIf c).draws = s.draws := by cases c <;> rfl

/-- All that a skip does: `PC` moves on by 4 or by 2 (R127). -/
theorem State.skipIf_eq (c : Bool) : s.skipIf c = { s with pc := if c then s.pc + 4 else s.pc + 2 } := by
  rw [← State.skipIf_pc]
  cases c <;> rfl

/-! ### Registers -/

theorem State.reg_eq (x : RegIdx) : s.reg x = s.v[x] := rfl

@[simp] theorem State.reg_setReg (x k : RegIdx) (b : Byte) :
    (s.setReg x b).reg k = if k = x then b else s.reg k := by
  simp only [State.reg, State.setReg_v, Fin.getElem_fin, Vector.getElem_set, Fin.val_inj, eq_comm (a := x)]

@[simp] theorem State.reg_setIndex (a : Word) (k : RegIdx) : (s.setIndex a).reg k = s.reg k := rfl
@[simp] theorem State.reg_setPc (a : Word) (k : RegIdx) : (s.setPc a).reg k = s.reg k := rfl
@[simp] theorem State.reg_advance (k : RegIdx) : s.advance.reg k = s.reg k := rfl
@[simp] theorem State.reg_nextDraw (k : RegIdx) : s.nextDraw.reg k = s.reg k := rfl
@[simp] theorem State.reg_writeKeys (h : Keys) (k : RegIdx) : (s.writeKeys h).reg k = s.reg k := rfl

/-- Result first, flag last (R153): VF ends as the flag whatever the destination. -/
@[simp] theorem State.reg_setResultAndFlag (x k : RegIdx) (b : Byte) (c : Bool) :
    (s.setResultAndFlag x b c).reg k = if k = VF then flagByte c else if k = x then b else s.reg k := by
  simp [State.setResultAndFlag]

/-- Two register files are equal when every register is. -/
theorem State.v_ext (t : State) (h : ∀ k, s.reg k = t.reg k) : s.v = t.v := by
  apply Vector.ext
  intro i hi
  exact h ⟨i, hi⟩

/-- A state's register file, given by what each register reads. -/
theorem State.reset_reg (k : RegIdx) : State.reset.reg k = 0 := by
  simp [State.reg, State.reset]

end Sys2Proof.Machine
end

