-- ==== Sys2Proof/Laws/Memory.lean ====
section
/-! SUPPORT. Memory: a read after a write, the canonical form and that every operation keeps it, lists of bytes, the bounds check
(R56, R58, R60). -/

namespace Sys2Proof.Machine

/-! ### Reading after a write -/

theorem Memory.read_filter_ne (m : Memory) (a k : Nat) :
    Memory.read (m.filter (fun c => c.1 != a)) k = if k = a then resetByte a else m.read k := by
  induction m with
  | nil =>
    simp only [List.filter_nil, Memory.read]
    split
    · subst_vars; rfl
    · rfl
  | cons c rest ih =>
    obtain ⟨k', b'⟩ := c
    by_cases hk : k' = a
    · subst hk
      rw [List.filter_cons_of_neg (by simp), ih]
      split
      · rfl
      · rw [Memory.read, if_neg (by omega)]
    · rw [List.filter_cons_of_pos (by simpa using hk), Memory.read, ih, Memory.read]
      by_cases h : k' = k
      · rw [if_pos h, if_neg (by omega), if_pos h]
      · rw [if_neg h, if_neg h]

theorem Memory.read_place (m : Memory) (a k : Nat) (b : Byte) (h : ∀ c ∈ m, c.1 ≠ a) :
    (Memory.place a b m).read k = if k = a then b else m.read k := by
  induction m with
  | nil => simp [Memory.place, Memory.read, eq_comm]
  | cons c rest ih =>
    obtain ⟨k', b'⟩ := c
    have hk : k' ≠ a := h (k', b') (List.mem_cons_self ..)
    have ih := ih (fun c hc => h c (List.mem_cons_of_mem _ hc))
    rw [Memory.place]
    split
    · simp [Memory.read, eq_comm]
    · rw [Memory.read, ih, Memory.read]
      split
      · subst_vars; rw [if_neg hk]
      · rfl

/-- A byte written is the byte read back, and every other byte is as before (R60). It holds of every list of cells. -/
@[simp] theorem Memory.read_write (m : Memory) (a k : Nat) (b : Byte) :
    (m.write a b).read k = if k = a then b else m.read k := by
  unfold Memory.write
  split
  · rename_i hb
    rw [Memory.read_filter_ne, hb]
  · rw [Memory.read_place _ _ _ _ (by simp [List.mem_filter]), Memory.read_filter_ne]
    split <;> rfl

/-- Storing a list of bytes: the addresses it covers hold its bytes, every other one is as before (R54). -/
theorem Memory.read_writeList (m : Memory) (a k : Nat) (bs : List Byte) :
    (m.writeList a bs).read k =
      if h : a ≤ k ∧ k < a + bs.length then bs[k - a]'(by omega) else m.read k := by
  induction bs generalizing m a with
  | nil => simp [Memory.writeList]
  | cons b bs ih =>
    rw [Memory.writeList, ih, Memory.read_write]
    by_cases h1 : k = a
    · subst h1
      simp
    · by_cases h2 : a + 1 ≤ k ∧ k < a + 1 + bs.length
      · rw [dif_pos h2, dif_pos (by simp only [List.length_cons]; omega)]
        rw [List.getElem_cons, dif_neg (by omega)]
        congr 1
      · rw [dif_neg h2, dif_neg (by simp only [List.length_cons]; omega), if_neg h1]

@[simp] theorem Memory.length_readList (m : Memory) (a n : Nat) : (m.readList a n).length = n := by
  induction n generalizing a with
  | zero => rfl
  | succ n ih => simp [Memory.readList, ih]

theorem Memory.getElem_readList (m : Memory) (a n i : Nat) (h : i < (m.readList a n).length) :
    (m.readList a n)[i] = m.read (a + i) := by
  induction n generalizing a i with
  | zero => simp at h
  | succ n ih =>
    cases i with
    | zero => simp [Memory.readList]
    | succ i => simp only [Memory.readList, List.getElem_cons_succ, ih]; congr 1; omega

/-! ### The canonical form -/

/-- What the canonical form says of a list with a first cell. -/
theorem Memory.wf_cons (c : Host.Cell) (rest : Memory) :
    Memory.wf (c :: rest) = true ↔
      c.1 < memSize ∧ c.2 ≠ resetByte c.1 ∧ (∀ d ∈ rest, c.1 < d.1) ∧ Memory.wf rest = true := by
  have rising_head : ∀ (rest : Memory) (c : Host.Cell),
      Memory.rising (c :: rest) = true → ∀ d ∈ rest, c.1 < d.1 := by
    intro rest
    induction rest with
    | nil => simp
    | cons e rest ih =>
      intro c h d hd
      simp only [Memory.rising, Bool.and_eq_true, decide_eq_true_eq] at h
      rcases List.mem_cons.mp hd with rfl | hd
      · exact h.1
      · exact Nat.lt_trans h.1 (ih e h.2 d hd)
  have rising_tail : Memory.rising (c :: rest) = true → Memory.rising rest = true := by
    cases rest with
    | nil => simp [Memory.rising]
    | cons e rest => simp [Memory.rising]
  have rising_cons : (∀ d ∈ rest, c.1 < d.1) → Memory.rising rest = true → Memory.rising (c :: rest) = true := by
    cases rest with
    | nil => simp [Memory.rising]
    | cons e rest => intro h h'; simp [Memory.rising, h', h e (List.mem_cons_self ..)]
  simp only [Memory.wf, Bool.and_eq_true, List.all_cons, decide_eq_true_eq, bne_iff_ne]
  constructor
  · rintro ⟨hr, ⟨h1, h2⟩, h3⟩
    exact ⟨h1, h2, rising_head rest c hr, rising_tail hr, h3⟩
  · rintro ⟨h1, h2, h3, h4, h5⟩
    exact ⟨rising_cons h3 h4, ⟨h1, h2⟩, h5⟩

theorem Memory.wf_nil : Memory.wf [] = true := rfl

theorem Memory.wf_filter (m : Memory) (p : Host.Cell → Bool) (h : m.wf = true) :
    Memory.wf (m.filter p) = true := by
  induction m with
  | nil => rfl
  | cons c rest ih =>
    rw [Memory.wf_cons] at h
    rw [List.filter_cons]
    split
    · rw [Memory.wf_cons]
      exact ⟨h.1, h.2.1, fun d hd => h.2.2.1 d (List.mem_filter.mp hd).1, ih h.2.2.2⟩
    · exact ih h.2.2.2

theorem Memory.mem_place (m : Memory) (a : Nat) (b : Byte) (c : Host.Cell) :
    c ∈ Memory.place a b m ↔ c = (a, b) ∨ c ∈ m := by
  induction m with
  | nil => simp [Memory.place]
  | cons d rest ih =>
    rw [Memory.place]
    split
    · simp
    · simp only [List.mem_cons, ih]
      tauto

theorem Memory.wf_place (m : Memory) (a : Nat) (b : Byte) (h : m.wf = true) (hne : ∀ c ∈ m, c.1 ≠ a)
    (ha : a < memSize) (hb : b ≠ resetByte a) : Memory.wf (Memory.place a b m) = true := by
  induction m with
  | nil => rw [Memory.place, Memory.wf_cons]; exact ⟨ha, hb, by simp, rfl⟩
  | cons c rest ih =>
    have h' := (Memory.wf_cons c rest).mp h
    have hc := hne c (List.mem_cons_self ..)
    rw [Memory.place]
    split
    · rename_i hlt
      rw [Memory.wf_cons]
      refine ⟨ha, hb, ?_, h⟩
      intro d hd
      rcases List.mem_cons.mp hd with rfl | hd
      · exact hlt
      · exact Nat.lt_trans hlt (h'.2.2.1 d hd)
    · rw [Memory.wf_cons]
      refine ⟨h'.1, h'.2.1, ?_, ih h'.2.2.2 (fun d hd => hne d (List.mem_cons_of_mem _ hd))⟩
      intro d hd
      rcases (Memory.mem_place _ _ _ _).mp hd with rfl | hd
      · show c.1 < a; omega
      · exact h'.2.2.1 d hd

/-- A store inside memory keeps the canonical form. -/
theorem Memory.wf_write (m : Memory) (a : Nat) (b : Byte) (h : m.wf = true) (ha : a < memSize) :
    (m.write a b).wf = true := by
  unfold Memory.write
  split
  · exact Memory.wf_filter m _ h
  · rename_i hb
    exact Memory.wf_place _ _ _ (Memory.wf_filter m _ h) (by simp [List.mem_filter]) ha hb

/-- Storing a list of bytes inside memory keeps the canonical form. -/
theorem Memory.wf_writeList (m : Memory) (a : Nat) (bs : List Byte) (h : m.wf = true)
    (ha : bs = [] ∨ a + bs.length ≤ memSize) : (m.writeList a bs).wf = true := by
  induction bs generalizing m a with
  | nil => exact h
  | cons b bs ih =>
    rcases ha with ha | ha
    · cases ha
    · simp only [List.length_cons] at ha
      exact ih _ _ (Memory.wf_write m a b h (by omega)) (Or.inr (by omega))

theorem State.reset_mem_wf : State.reset.mem.wf = true := rfl

/-- In canonical form, what memory reads as says all there is to it: two canonical memories that read alike are equal. -/
theorem Memory.ext_of_read : ∀ (m m' : Memory), m.wf = true → m'.wf = true → (∀ a, m.read a = m'.read a) → m = m' := by
  have absent : ∀ (m : Memory) (a : Nat), (∀ c ∈ m, c.1 ≠ a) → m.read a = resetByte a := by
    intro m a
    induction m with
    | nil => intro _; rfl
    | cons c rest ih =>
      intro h
      obtain ⟨k, b⟩ := c
      rw [Memory.read, if_neg (h (k, b) (List.mem_cons_self ..))]
      exact ih fun d hd => h d (List.mem_cons_of_mem _ hd)
  have head : ∀ (k : Nat) (b : Byte) (rest : Memory), Memory.read ((k, b) :: rest) k = b := by
    intro k b rest; simp [Memory.read]
  intro m
  induction m with
  | nil =>
    intro m' _ h' e
    cases m' with
    | nil => rfl
    | cons c rest =>
      obtain ⟨k, b⟩ := c
      have := e k
      rw [head] at this
      exact absurd this.symm ((Memory.wf_cons _ _).mp h').2.1
  | cons c rest ih =>
    intro m' h h' e
    obtain ⟨k, b⟩ := c
    have hw := (Memory.wf_cons _ _).mp h
    cases m' with
    | nil =>
      have := e k
      rw [head] at this
      exact absurd this hw.2.1
    | cons c' rest' =>
      obtain ⟨k', b'⟩ := c'
      have hw' := (Memory.wf_cons _ _).mp h'
      have hk : k = k' := by
        rcases Nat.lt_trichotomy k k' with hlt | heq | hgt
        · have e1 := e k
          rw [head, absent] at e1
          · exact absurd e1 hw.2.1
          · intro d hd
            rcases List.mem_cons.mp hd with rfl | hd
            · show k' ≠ k; omega
            · have := hw'.2.2.1 d hd; simp only at this; omega
        · exact heq
        · have e1 := e k'
          rw [head, absent] at e1
          · exact absurd e1.symm hw'.2.1
          · intro d hd
            rcases List.mem_cons.mp hd with rfl | hd
            · show k ≠ k'; omega
            · have := hw.2.2.1 d hd; simp only at this; omega
      subst hk
      have hb : b = b' := by have := e k; rwa [head, head] at this
      subst hb
      congr 1
      apply ih rest' hw.2.2.2 hw'.2.2.2
      intro a
      by_cases ha : k = a
      · subst ha
        rw [absent, absent]
        · intro d hd; have := hw'.2.2.1 d hd; simp only at this; omega
        · intro d hd; have := hw.2.2.1 d hd; simp only at this; omega
      · have := e a
        rwa [Memory.read, Memory.read, if_neg ha, if_neg ha] at this

/-! ### The bounds check -/

/-- No address out of range: the check passes exactly when there is no address at all or the last one is inside memory (R56). -/
theorem firstBad_eq_none (first n : Nat) : firstBad first n = none ↔ n = 0 ∨ first + n ≤ memSize := by
  unfold firstBad
  split <;> simp <;> omega

/-- Some address out of range: the check gives the lowest of them (R56). -/
theorem firstBad_eq_some (first n a : Nat) :
    firstBad first n = some a ↔ n ≠ 0 ∧ memSize < first + n ∧ a = max first memSize := by
  unfold firstBad
  split <;> simp <;> omega

end Sys2Proof.Machine
end

