-- ==== Sys2Proof/Laws/Display.lean ====
section
/-! SUPPORT. The framebuffer: a cell after a toggle and after a blit, the cells of a sprite, and that no two bits of one sprite share a
cell (R192, R194, R195, R196). -/

namespace Sys2Proof.Machine

/-- Two framebuffers that agree on every cell are equal. -/
theorem Grid.ext_of_cell (g h : Grid) (e : ∀ p, g.cell p = h.cell p) : g = h := by
  apply Vector.ext
  intro r hr
  apply Vector.ext
  intro c hc
  exact e (⟨r, hr⟩, ⟨c, hc⟩)

@[simp] theorem Grid.cell_blank (p : Pixel) : Grid.blank.cell p = false := by
  simp [Grid.cell, Grid.blank]

theorem State.reset_fb : State.reset.fb = Grid.blank := rfl

/-- Setting one cell of a vector of vectors. -/
theorem getElem_set_set {α : Type} {m n : Nat} (g : Vector (Vector α n) m) (r c r' c' : Nat) (x : α)
    (hr : r < m) (hc : c < n) (hr' : r' < m) (hc' : c' < n) :
    (g.set r (g[r].set c x))[r'][c'] = if r' = r ∧ c' = c then x else g[r'][c'] := by
  by_cases h : r = r'
  · subst h
    rw [Vector.getElem_set_self, Vector.getElem_set]
    simp only [true_and, eq_comm (a := c)]
  · rw [Vector.getElem_set_ne _ _ h, if_neg (fun e => h e.1.symm)]

/-- A toggle turns its own cell over and leaves every other one (R192). -/
@[simp] theorem Grid.cell_toggle (g : Grid) (p q : Pixel) :
    (g.toggle p).cell q = if q = p then !g.cell p else g.cell q := by
  have h := getElem_set_set g p.1 p.2 q.1 q.2 (!g[p.1][p.2]) p.1.isLt p.2.isLt q.1.isLt q.2.isLt
  refine h.trans ?_
  have : (q = p) ↔ (q.1.val = p.1.val ∧ q.2.val = p.2.val) := by
    rw [Prod.ext_iff, Fin.ext_iff, Fin.ext_iff]
  by_cases hq : q = p
  · rw [if_pos hq, if_pos (this.mp hq)]
    rfl
  · rw [if_neg hq, if_neg (fun e => hq (this.mpr e))]
    rfl

/-- A blit over distinct cells turns exactly those over (R196). -/
theorem Grid.cell_blit (g : Grid) (ps : List Pixel) (h : ps.Nodup) (q : Pixel) :
    (g.blit ps).1.cell q = (g.cell q != decide (q ∈ ps)) := by
  induction ps generalizing g with
  | nil => simp [Grid.blit]
  | cons p ps ih =>
    obtain ⟨hp, hps⟩ := List.nodup_cons.mp h
    simp only [Grid.blit, ih _ hps, Grid.cell_toggle, List.mem_cons]
    by_cases hq : q = p
    · subst hq
      simp [hp]
    · simp [hq]

/-- A blit over distinct cells reports a collision exactly when one of them was on (R192). -/
theorem Grid.hit_blit (g : Grid) (ps : List Pixel) (h : ps.Nodup) :
    (g.blit ps).2 = ps.any (fun p => g.cell p) := by
  induction ps generalizing g with
  | nil => rfl
  | cons p ps ih =>
    obtain ⟨hp, hps⟩ := List.nodup_cons.mp h
    simp only [Grid.blit, ih _ hps, List.any_cons]
    congr 1
    rw [Bool.eq_iff_iff, List.any_eq_true, List.any_eq_true]
    constructor <;>
    · rintro ⟨x, hx, hc⟩
      refine ⟨x, hx, ?_⟩
      have : x ≠ p := fun e => hp (e ▸ hx)
      simpa [this] using hc

/-! ### The cells of a sprite (R193, R194) -/

theorem mem_rowPixels (ox row : Nat) (b : Byte) (q : Pixel) :
    q ∈ rowPixels ox row b ↔ ∃ c < 8, spriteBit b c = true ∧ q = (wrapRow row, wrapCol (ox + c)) := by
  simp only [rowPixels, List.mem_filterMap, List.mem_range]
  constructor
  · rintro ⟨c, hc, h⟩
    split at h
    · rename_i hb; exact ⟨c, hc, hb, by simpa using h.symm⟩
    · cases h
  · rintro ⟨c, hc, hb, rfl⟩
    exact ⟨c, hc, by simp [hb]⟩

/-- A cell is under a set bit of a sprite exactly when some row and column of the sprite say so. -/
theorem mem_spritePixels (ox oy : Nat) (bs : List Byte) (q : Pixel) :
    q ∈ spritePixels ox oy bs ↔
      ∃ r, ∃ h : r < bs.length, ∃ c < 8, spriteBit bs[r] c = true ∧ q = (wrapRow (oy + r), wrapCol (ox + c)) := by
  induction bs generalizing oy with
  | nil => simp [spritePixels]
  | cons b bs ih =>
    rw [spritePixels, List.mem_append, mem_rowPixels, ih]
    constructor
    · rintro (⟨c, hc, hb, rfl⟩ | ⟨r, hr, c, hc, hb, rfl⟩)
      · exact ⟨0, by simp, c, hc, hb, rfl⟩
      · exact ⟨r + 1, by simpa using hr, c, hc, by simpa using hb, by rw [show oy + 1 + r = oy + (r + 1) by omega]⟩
    · rintro ⟨r, hr, c, hc, hb, rfl⟩
      cases r with
      | zero => exact Or.inl ⟨c, hc, by simpa using hb, rfl⟩
      | succ r =>
        exact Or.inr ⟨r, by simpa using hr, c, hc, by simpa using hb, by rw [show oy + 1 + r = oy + (r + 1) by omega]⟩

theorem wrapCol_inj (ox : Nat) {c d : Nat} (hc : c < 8) (hd : d < 8) (h : wrapCol (ox + c) = wrapCol (ox + d)) : c = d := by
  have := congrArg Fin.val h
  simp only [wrapCol, width] at this
  omega

theorem wrapRow_inj (oy : Nat) {r s : Nat} (hr : r < 15) (hs : s < 15) (h : wrapRow (oy + r) = wrapRow (oy + s)) : r = s := by
  have := congrArg Fin.val h
  simp only [wrapRow, height] at this
  omega

theorem nodup_rowPixels (ox row : Nat) (b : Byte) : (rowPixels ox row b).Nodup := by
  have key : ∀ l : List Nat, l.Nodup → (∀ c ∈ l, c < 8) →
      (l.filterMap fun c => if spriteBit b c then some ((wrapRow row, wrapCol (ox + c)) : Pixel) else none).Nodup := by
    intro l
    induction l with
    | nil => intro _ _; simp
    | cons c l ih =>
      intro hl hlt
      obtain ⟨hc, hl⟩ := List.nodup_cons.mp hl
      have ih := ih hl (fun d hd => hlt d (List.mem_cons_of_mem _ hd))
      rw [List.filterMap_cons]
      split
      · exact ih
      · rename_i p hp
        rw [List.nodup_cons]
        refine ⟨?_, ih⟩
        intro hmem
        rw [List.mem_filterMap] at hmem
        obtain ⟨d, hd, he⟩ := hmem
        split at he
        · split at hp
          · cases hp
            have := wrapCol_inj ox (hlt d (List.mem_cons_of_mem _ hd)) (hlt c (List.mem_cons_self ..))
              (congrArg Prod.snd (Option.some.inj he))
            exact hc (this ▸ hd)
          · cases hp
        · cases he
  exact key _ List.nodup_range (fun c hc => List.mem_range.mp hc)

/-- No two set bits of one sprite of at most 15 rows land on the same cell (R195). -/
theorem nodup_spritePixels (ox oy : Nat) (bs : List Byte) (h : bs.length ≤ 15) : (spritePixels ox oy bs).Nodup := by
  induction bs generalizing oy with
  | nil => exact List.nodup_nil
  | cons b bs ih =>
    simp only [List.length_cons] at h
    rw [spritePixels]
    refine List.Nodup.append (nodup_rowPixels ..) (ih (oy + 1) (by omega)) ?_
    intro q hq hq'
    rw [mem_rowPixels] at hq
    rw [mem_spritePixels] at hq'
    obtain ⟨c, _, _, rfl⟩ := hq
    obtain ⟨r, hr, d, _, _, he⟩ := hq'
    have := congrArg Prod.fst he
    rw [show oy + 1 + r = oy + (r + 1) by omega] at this
    have := wrapRow_inj oy (r := 0) (s := r + 1) (by omega) (by omega) this
    omega

end Sys2Proof.Machine
end

