-- ==== Sys2Proof/Laws/Encoding.lean ====
section
/-! SUPPORT. What a selected word's selector fields are, and how a row's `match` and `mask` follow from them (R74, R75, R76). -/

namespace Sys2Proof.Machine

/-- The `op` of an instruction's row (R74). -/
def rowOp : Instr → Nibble
  | .cls _ | .ret _ => 0x0
  | .jp _ => 0x1
  | .call _ => 0x2
  | .seVxKk _ _ => 0x3
  | .sneVxKk _ _ => 0x4
  | .seVxVy _ _ _ => 0x5
  | .ldVxKk _ _ => 0x6
  | .addVxKk _ _ => 0x7
  | .ldVxVy _ _ | .or _ _ | .and _ _ | .xor _ _ | .addVxVy _ _ | .sub _ _ | .shr _ _ | .subn _ _ | .shl _ _ => 0x8
  | .sneVxVy _ _ _ => 0x9
  | .ldI _ => 0xA
  | .jpV0 _ => 0xB
  | .rnd _ _ => 0xC
  | .drw _ _ _ => 0xD
  | .skp _ | .sknp _ => 0xE
  | .ldVxDt _ | .ldVxK _ | .ldDtVx _ | .ldStVx _ | .addIVx _ | .ldFVx _ | .ldBVx _ | .ldMemVx _ | .ldVxMem _ => 0xF

/-- The low nibble that selects an instruction, for the rows selected on it (R75). -/
def rowNibble : Instr → Option Nibble
  | .ldVxVy _ _ => some 0x0
  | .or _ _ => some 0x1
  | .and _ _ => some 0x2
  | .xor _ _ => some 0x3
  | .addVxVy _ _ => some 0x4
  | .sub _ _ => some 0x5
  | .shr _ _ => some 0x6
  | .subn _ _ => some 0x7
  | .shl _ _ => some 0xE
  | _ => none

/-- The low byte that selects an instruction, for the rows selected on it (R75). -/
def rowByte : Instr → Option Byte
  | .cls _ => some 0xE0
  | .ret _ => some 0xEE
  | .skp _ => some 0x9E
  | .sknp _ => some 0xA1
  | .ldVxDt _ => some 0x07
  | .ldVxK _ => some 0x0A
  | .ldDtVx _ => some 0x15
  | .ldStVx _ => some 0x18
  | .addIVx _ => some 0x1E
  | .ldFVx _ => some 0x29
  | .ldBVx _ => some 0x33
  | .ldMemVx _ => some 0x55
  | .ldVxMem _ => some 0x65
  | _ => none

/-- A selected word carries its row's selectors. -/
theorem select_fields {w : Word} {i : Instr} (h : select w = some i) :
    opField w = rowOp i ∧ (∀ k, rowNibble i = some k → nBits w = k) ∧ (∀ k, rowByte i = some k → kkField w = k) := by
  unfold select at h
  split at h <;> rename_i ho <;> (try unfold decode0 at h) <;> (try unfold decode8 at h) <;> (try unfold decodeE at h) <;>
    (try unfold decodeF at h) <;> (try split at h) <;> (try rename_i hk) <;> (try cases h) <;>
    (refine ⟨ho, ?_, ?_⟩) <;> intro k e <;> simp only [rowNibble, rowByte] at e <;> cases e <;> exact hk

/-- A row selected on `op` alone. -/
theorem encodedAs_op {o : Nibble} {value : Word} {f : Word → Instr} (hv : value = o ++ 0#12)
    (hsel : ∀ w, opField w = o → select w = some (f w)) (hrow : ∀ v, rowOp (f v) = o) : EncodedAs value 0xF000#16 f := by
  intro w
  rw [hv, Ne, mask_F000]
  exact ⟨fun h => decode_of_select (hsel w h),
    fun h v hd => h (hrow v ▸ (select_fields (select_of_decode hd)).1)⟩

/-- A row selected on `op` and the low nibble. -/
theorem encodedAs_nibble {o k : Nibble} {value : Word} {f : Word → Instr} (hv : value = o ++ 0#8 ++ k)
    (hsel : ∀ w, opField w = o → nBits w = k → select w = some (f w)) (hrow : ∀ v, rowOp (f v) = o ∧ rowNibble (f v) = some k) :
    EncodedAs value 0xF00F#16 f := by
  intro w
  rw [hv, Ne, mask_F00F]
  refine ⟨fun h => decode_of_select (hsel w h.1 h.2), fun h v hd => h ?_⟩
  have hs := select_fields (select_of_decode hd)
  exact ⟨(hrow v).1 ▸ hs.1, hs.2.1 k (hrow v).2⟩

/-- A row selected on `op` and the low byte. -/
theorem encodedAs_byte {o : Nibble} {k : Byte} {value : Word} {f : Word → Instr} (hv : value = o ++ 0#4 ++ k)
    (hsel : ∀ w, opField w = o → kkField w = k → select w = some (f w)) (hrow : ∀ v, rowOp (f v) = o ∧ rowByte (f v) = some k) :
    EncodedAs value 0xF0FF#16 f := by
  intro w
  rw [hv, Ne, mask_F0FF]
  refine ⟨fun h => decode_of_select (hsel w h.1 h.2), fun h v hd => h ?_⟩
  have hs := select_fields (select_of_decode hd)
  exact ⟨(hrow v).1 ▸ hs.1, hs.2.2 k (hrow v).2⟩

end Sys2Proof.Machine
end

