-- ==== Sys2Proof/Laws/Ops.lean ====
section
/-! SUPPORT. One lemma for each shared operation, saying everything it can do: the call stack, the register range, the key index and the
lowest pressed key, the fetch, placing a word, and the ways a step can go. -/

namespace Sys2Proof.Machine

/-! ### The call stack (R120, R122) -/

/-- What a push does when it can be done: the entry at the old `SP` holds the address, every other entry is as before. -/
theorem State.pushReturn_spec (s : State) (a : Word) :
    (s.sp.val = 16 ∧ s.pushReturn a = none) ∨
    (∃ h : s.sp.val < 16, s.pushReturn a = some { s with stack := s.stack.set s.sp.val a, sp := ⟨s.sp.val + 1, by omega⟩ }) := by
  by_cases h : s.sp.val < 16
  · exact Or.inr ⟨h, by simp [State.pushReturn, h]⟩
  · exact Or.inl ⟨by have := s.sp.isLt; omega, by simp [State.pushReturn, h]⟩

/-- What a pop does when it can be done: `SP` goes down first, and the entry there is the answer and stays. -/
theorem State.popReturn_spec (s : State) :
    (s.sp.val = 0 ∧ s.popReturn = none) ∨
    (∃ h : s.sp.val - 1 < 16, s.sp.val ≠ 0 ∧
      s.popReturn = some (s.stack[s.sp.val - 1], { s with sp := ⟨s.sp.val - 1, by omega⟩ })) := by
  by_cases h : s.sp.val = 0
  · exact Or.inl ⟨h, by simp [State.popReturn, h]⟩
  · exact Or.inr ⟨by have := s.sp.isLt; omega, h, by simp [State.popReturn, h]⟩

/-! ### The register range (R175, R176) -/

theorem mem_sixteen (k : Fin 16) : k ∈ sixteen := by
  revert k; decide

theorem mem_regsUpTo (x k : RegIdx) : k ∈ regsUpTo x ↔ k.val ≤ x.val := by
  simp [regsUpTo, mem_sixteen]

theorem nodup_regsUpTo (x : RegIdx) : (regsUpTo x).Nodup := by
  revert x; decide

theorem length_regsUpTo (x : RegIdx) : (regsUpTo x).length = x.val + 1 := by
  revert x; decide

theorem getElem_regsUpTo (x : RegIdx) (i : Nat) (h : i < (regsUpTo x).length) : ((regsUpTo x)[i]).val = i := by
  have key : ∀ x : RegIdx, ∀ i : Fin 16, ∀ h : i.val < (regsUpTo x).length, ((regsUpTo x)[i.val]).val = i.val := by decide
  have hx := length_regsUpTo x
  exact key x ⟨i, by omega⟩ h

/-- Loading registers one after another: each one named takes its byte, every other one is as before, and nothing else changes. -/
theorem State.loadRegs_spec (s : State) (first : Nat) (ks : List RegIdx) :
    (∀ k, (s.loadRegs first ks).reg k = if k ∈ ks then s.mem.read (first + k.val) else s.reg k) ∧
    s.loadRegs first ks = { s with v := (s.loadRegs first ks).v } := by
  have go : ∀ (ks : List RegIdx) (t : State),
      (∀ k, (ks.foldl (fun t k => t.setReg k (s.mem.read (first + k.val))) t).reg k =
        if k ∈ ks then s.mem.read (first + k.val) else t.reg k) ∧
      ks.foldl (fun t k => t.setReg k (s.mem.read (first + k.val))) t =
        { t with v := (ks.foldl (fun t k => t.setReg k (s.mem.read (first + k.val))) t).v } := by
    intro ks
    induction ks with
    | nil => intro t; simp
    | cons j ks ih =>
      intro t
      obtain ⟨h1, h2⟩ := ih (t.setReg j (s.mem.read (first + j.val)))
      rw [List.foldl_cons]
      refine ⟨fun k => ?_, ?_⟩
      · rw [h1 k, State.reg_setReg]
        by_cases hk : k ∈ ks
        · simp [hk]
        · by_cases hj : k = j
          · simp [hj]
          · simp [hk, hj]
      · rw [h2]; rfl
  exact go ks s

/-! ### Keys (R213, R216) -/

theorem keyOf_eq_none (b : Byte) : keyOf b = none ↔ 15 < b.toNat := by
  unfold keyOf
  split <;> simp <;> omega

theorem keyOf_eq_some (b : Byte) (k : Fin 16) : keyOf b = some k ↔ b.toNat = k.val := by
  unfold keyOf
  split
  · simp [Fin.ext_iff]
  · have := k.isLt
    simp
    omega

theorem State.lowestKey_eq_none (s : State) : s.lowestKey = none ↔ ∀ k, s.key k = false := by
  simp [State.lowestKey, List.find?_eq_none, mem_sixteen]

/-- The key chosen is pressed and no lower one is (R213). -/
theorem State.lowestKey_eq_some (s : State) (k : Fin 16) :
    s.lowestKey = some k ↔ s.key k = true ∧ ∀ j, j < k → s.key j = false := by
  have sorted : sixteen.Pairwise (· < ·) := by decide
  constructor
  · intro h
    refine ⟨by simpa using List.find?_some h, ?_⟩
    intro j hj
    obtain ⟨_, as, bs, hab, has⟩ := List.find?_eq_some_iff_append.mp h
    have hmem := mem_sixteen j
    rw [hab] at hmem sorted
    rcases List.mem_append.mp hmem with hm | hm
    · simpa using has j hm
    · have hs := (List.pairwise_append.mp sorted).2.1
      rcases List.mem_cons.mp hm with rfl | hm
      · exact absurd hj (lt_irrefl _)
      · exact absurd hj (not_lt.mpr (le_of_lt (List.rel_of_pairwise_cons hs hm)))
  · rintro ⟨hk, hlow⟩
    cases h : s.lowestKey with
    | none => rw [(State.lowestKey_eq_none s).mp h k] at hk; cases hk
    | some j =>
      have hj : s.key j = true := by simpa using List.find?_some h
      obtain ⟨_, as, bs, hab, has⟩ := List.find?_eq_some_iff_append.mp h
      rcases lt_trichotomy j k with hlt | heq | hgt
      · rw [hlow j hlt] at hj; cases hj
      · rw [heq]
      · have hmem := mem_sixteen k
        rw [hab] at hmem sorted
        rcases List.mem_append.mp hmem with hm | hm
        · have := has k hm; simp [hk] at this
        · have hs := (List.pairwise_append.mp sorted).2.1
          rcases List.mem_cons.mp hm with rfl | hm
          · rfl
          · exact absurd hgt (not_lt.mpr (le_of_lt (List.rel_of_pairwise_cons hs hm)))

/-! ### Fetching and placing a word (R53, R101) -/

/-- A fetch gives the two bytes at `PC`, the lower address the more significant, or the lowest address that is out of range. -/
theorem State.fetch_eq_ok (s : State) (w : Word) :
    s.fetch = .ok w ↔ s.pc.toNat + 2 ≤ memSize ∧ w = wordOfBytes (s.mem.read s.pc.toNat) (s.mem.read (s.pc.toNat + 1)) := by
  unfold State.fetch
  cases h : firstBad s.pc.toNat 2 with
  | none => have := (firstBad_eq_none _ _).mp h; simp [eq_comm]; omega
  | some a => have := (firstBad_eq_some _ _ _).mp h; simp; omega

theorem State.fetch_eq_error (s : State) (a : Nat) :
    s.fetch = .error a ↔ memSize < s.pc.toNat + 2 ∧ a = max s.pc.toNat memSize := by
  unfold State.fetch
  cases h : firstBad s.pc.toNat 2 with
  | none => have := (firstBad_eq_none _ _).mp h; simp; omega
  | some b => have := (firstBad_eq_some _ _ _).mp h; simp [eq_comm (b := a)]; omega

/-- The bytes of a word put together again are the word (R53). -/
theorem wordOfBytes_bytesOfWord (w : Word) : wordOfBytes (w.extractLsb' 8 8) (w.extractLsb' 0 8) = w := by
  apply BitVec.eq_of_getLsbD_eq
  intro i hi
  rw [wordOfBytes, BitVec.getLsbD_append]
  by_cases h : i < 8
  · simp [h]
  · simp [h, show i - 8 < 8 by omega, show 8 + (i - 8) = i by omega]

/-- A word placed at a fetchable `PC` is the word the next step fetches. -/
theorem State.fetch_placeWord (s : State) (w : Word) (h : s.pc.toNat + 2 ≤ memSize) :
    (s.placeWord w).fetch = .ok w ∧ (s.placeWord w).fault = none ∧ (s.placeWord w).pc = s.pc := by
  have hb : firstBad s.pc.toNat 2 = none := (firstBad_eq_none _ _).mpr (Or.inr h)
  unfold State.placeWord
  rw [hb]
  refine ⟨?_, rfl, rfl⟩
  rw [State.fetch_eq_ok]
  refine ⟨h, ?_⟩
  simp only [Memory.read_writeList, bytesOfWord, List.length_cons, List.length_nil]
  rw [dif_pos (by omega), dif_pos (by omega)]
  simp [wordOfBytes_bytesOfWord]

/-! ### The ways a step can go (R100, R108) -/

/-- A running core whose word decodes runs that instruction. -/
theorem step_of_decode {s : State} {w : Word} {i : Instr} (hf : s.fault = none) (hw : s.fetch = .ok w)
    (hi : decode w = .ok i) : step s = exec i s := by
  simp [step, hf, hw, hi]

/-- Everything a step that answers a next state can have done. -/
theorem step_cases {s t : State} (h : step s = .next t) :
    s.fault = none ∧
    ((∃ a, s.fetch = .error a ∧ t = { s with fault := some ⟨.addressFault, s.pc, 0, a⟩ }) ∨
     (∃ w, s.fetch = .ok w ∧ decode w = .error (.invalidOpcode w) ∧
        t = { s with fault := some ⟨.invalidOpcode, s.pc, w, 0⟩ }) ∨
     (∃ w i, s.fetch = .ok w ∧ decode w = .ok i ∧ exec i s = .next t)) := by
  unfold step at h
  cases hf : s.fault with
  | some r => rw [hf] at h; cases h
  | none =>
    rw [hf] at h
    refine ⟨rfl, ?_⟩
    cases hw : s.fetch with
    | error a => rw [hw] at h; exact Or.inl ⟨a, rfl, by simpa [raiseFault] using h.symm⟩
    | ok w =>
      rw [hw] at h
      simp only at h
      cases hs : select w with
      | none =>
        rw [decode_of_select_none hs] at h
        exact Or.inr (Or.inl ⟨w, rfl, decode_of_select_none hs, by simpa [raiseFault] using h.symm⟩)
      | some i =>
        rw [decode_of_select hs] at h
        exact Or.inr (Or.inr ⟨w, i, rfl, decode_of_select hs, h⟩)

/-! ### Runs of steps -/

theorem run_next (m : Host.Core) (n : Nat) (s t : m.State) (h : m.step s = .next t) : m.run (n + 1) s = m.run n t := by
  simp only [Host.Core.run, h]

theorem run_fault (m : Host.Core) (n : Nat) (s : m.State) (f : m.Fault) (h : m.step s = .fault f) :
    m.run (n + 1) s = .fault f := by
  simp only [Host.Core.run, h]

end Sys2Proof.Machine
end

