-- ==== Sys2Proof/Laws/PerInstr.lean ====
section
/-! SUPPORT. Statements about every instruction as syntax, one lemma per constructor. `PrimaryOpcode`: the encoded word of an
instruction carries the primary selector its row of R76 gives it (R74). -/

namespace Sys2Proof.Laws.PrimaryOpcode

/-- The `op` number of an instruction's row (R76). -/
def number : Instr → Nat
  | .cls _ | .ret _ => 0x0
  | .jp _ => 0x1
  | .call _ => 0x2
  | .seVxKk _ _ => 0x3
  | .sneVxKk _ _ => 0x4
  | .seVxVy _ _ _ => 0x5
  | .ldVxKk _ _ => 0x6
  | .addVxKk _ _ => 0x7
  | .ldVxVy _ _ | .or _ _ | .and _ _ | .xor _ _ | .addVxVy _ _ | .sub _ _ | .shr _ _ | .subn _ _ | .shl _ _ => 0x8
  | .sneVxVy _ _ _ => 0x9
  | .ldI _ => 0xA
  | .jpV0 _ => 0xB
  | .rnd _ _ => 0xC
  | .drw _ _ _ => 0xD
  | .skp _ | .sknp _ => 0xE
  | .ldVxDt _ | .ldVxK _ | .ldDtVx _ | .ldStVx _ | .addIVx _ | .ldFVx _ | .ldBVx _ | .ldMemVx _ | .ldVxMem _ => 0xF

/-- The encoded word's `op` field is the row's (R74). -/
def Statement (i : Instr) : Prop := (opField (encode i)).toNat = number i

theorem ofNnn (op : Nat) (nnn : Addr12) (h : op < 16) : (opField (packNnn op nnn)).toNat = op := by
  rw [opField_toNat, packNnn_toNat _ _ h]
  have := nnn.isLt
  omega

theorem ofXkk (op x kk : Nat) (h : op < 16) (hx : x < 16) (hk : kk < 256) : (opField (packXkk op x kk)).toNat = op := by
  rw [opField_toNat, packXkk_toNat _ _ _ h hx hk]
  omega

theorem ofXyn (op x y n : Nat) (h : op < 16) (hx : x < 16) (hy : y < 16) (hn : n < 16) :
    (opField (packXyn op x y n)).toNat = op := by
  rw [opField_toNat, packXyn_toNat _ _ _ _ h hx hy hn]
  omega

theorem jp (nnn : Addr12) : Statement (.jp nnn) := ofNnn 0x1 nnn (by decide)
theorem call (nnn : Addr12) : Statement (.call nnn) := ofNnn 0x2 nnn (by decide)
theorem ldI (nnn : Addr12) : Statement (.ldI nnn) := ofNnn 0xA nnn (by decide)
theorem jpV0 (nnn : Addr12) : Statement (.jpV0 nnn) := ofNnn 0xB nnn (by decide)
theorem cls (x : Nibble) : Statement (.cls x) := ofXkk 0x0 x.toNat 0xE0 (by decide) x.isLt (by decide)
theorem ret (x : Nibble) : Statement (.ret x) := ofXkk 0x0 x.toNat 0xEE (by decide) x.isLt (by decide)
theorem seVxKk (x : RegIdx) (kk : Byte) : Statement (.seVxKk x kk) := ofXkk 0x3 x kk.toNat (by decide) x.isLt kk.isLt
theorem sneVxKk (x : RegIdx) (kk : Byte) : Statement (.sneVxKk x kk) := ofXkk 0x4 x kk.toNat (by decide) x.isLt kk.isLt
theorem ldVxKk (x : RegIdx) (kk : Byte) : Statement (.ldVxKk x kk) := ofXkk 0x6 x kk.toNat (by decide) x.isLt kk.isLt
theorem addVxKk (x : RegIdx) (kk : Byte) : Statement (.addVxKk x kk) := ofXkk 0x7 x kk.toNat (by decide) x.isLt kk.isLt
theorem rnd (x : RegIdx) (kk : Byte) : Statement (.rnd x kk) := ofXkk 0xC x kk.toNat (by decide) x.isLt kk.isLt
theorem skp (x : RegIdx) : Statement (.skp x) := ofXkk 0xE x 0x9E (by decide) x.isLt (by decide)
theorem sknp (x : RegIdx) : Statement (.sknp x) := ofXkk 0xE x 0xA1 (by decide) x.isLt (by decide)
theorem ldVxDt (x : RegIdx) : Statement (.ldVxDt x) := ofXkk 0xF x 0x07 (by decide) x.isLt (by decide)
theorem ldVxK (x : RegIdx) : Statement (.ldVxK x) := ofXkk 0xF x 0x0A (by decide) x.isLt (by decide)
theorem ldDtVx (x : RegIdx) : Statement (.ldDtVx x) := ofXkk 0xF x 0x15 (by decide) x.isLt (by decide)
theorem ldStVx (x : RegIdx) : Statement (.ldStVx x) := ofXkk 0xF x 0x18 (by decide) x.isLt (by decide)
theorem addIVx (x : RegIdx) : Statement (.addIVx x) := ofXkk 0xF x 0x1E (by decide) x.isLt (by decide)
theorem ldFVx (x : RegIdx) : Statement (.ldFVx x) := ofXkk 0xF x 0x29 (by decide) x.isLt (by decide)
theorem ldBVx (x : RegIdx) : Statement (.ldBVx x) := ofXkk 0xF x 0x33 (by decide) x.isLt (by decide)
theorem ldMemVx (x : RegIdx) : Statement (.ldMemVx x) := ofXkk 0xF x 0x55 (by decide) x.isLt (by decide)
theorem ldVxMem (x : RegIdx) : Statement (.ldVxMem x) := ofXkk 0xF x 0x65 (by decide) x.isLt (by decide)
theorem ldVxVy (x y : RegIdx) : Statement (.ldVxVy x y) := ofXyn 0x8 x y 0x0 (by decide) x.isLt y.isLt (by decide)
theorem or (x y : RegIdx) : Statement (.or x y) := ofXyn 0x8 x y 0x1 (by decide) x.isLt y.isLt (by decide)
theorem and (x y : RegIdx) : Statement (.and x y) := ofXyn 0x8 x y 0x2 (by decide) x.isLt y.isLt (by decide)
theorem xor (x y : RegIdx) : Statement (.xor x y) := ofXyn 0x8 x y 0x3 (by decide) x.isLt y.isLt (by decide)
theorem addVxVy (x y : RegIdx) : Statement (.addVxVy x y) := ofXyn 0x8 x y 0x4 (by decide) x.isLt y.isLt (by decide)
theorem sub (x y : RegIdx) : Statement (.sub x y) := ofXyn 0x8 x y 0x5 (by decide) x.isLt y.isLt (by decide)
theorem subn (x y : RegIdx) : Statement (.subn x y) := ofXyn 0x8 x y 0x7 (by decide) x.isLt y.isLt (by decide)
theorem shr (x : RegIdx) (y : Nibble) : Statement (.shr x y) := ofXyn 0x8 x y.toNat 0x6 (by decide) x.isLt y.isLt (by decide)
theorem shl (x : RegIdx) (y : Nibble) : Statement (.shl x y) := ofXyn 0x8 x y.toNat 0xE (by decide) x.isLt y.isLt (by decide)
theorem seVxVy (x y : RegIdx) (n : Nibble) : Statement (.seVxVy x y n) := ofXyn 0x5 x y n.toNat (by decide) x.isLt y.isLt n.isLt
theorem sneVxVy (x y : RegIdx) (n : Nibble) : Statement (.sneVxVy x y n) := ofXyn 0x9 x y n.toNat (by decide) x.isLt y.isLt n.isLt
theorem drw (x y : RegIdx) (n : Height) : Statement (.drw x y n) := ofXyn 0xD x y n (by decide) x.isLt y.isLt n.isLt

end Sys2Proof.Laws.PrimaryOpcode
end

