-- ==== Sys2Proof/Tests/Slice0.lean ====
section
/-! SUPPORT. Tests of the model: well-formedness, decoding of words written out from the spec's encodings (R71, R72, R76), vectors of
spec/95_test_vectors.md, and a witness for the hypotheses of every statement. Expected values come from the spec. -/

namespace Sys2Proof.Tests

open Sys2Proof.Machine

/-! ### The states the tests start from -/

/-- `s` with some registers set. -/
def withRegs (s : State) (vs : List (RegIdx × Byte)) : State := vs.foldl (fun t p => t.setReg p.1 p.2) s

/-- `s` with bytes stored from an address on. -/
def withBytes (s : State) (a : Nat) (bs : List Byte) : State := { s with mem := s.mem.writeList a bs }

/-- `s` with some cells of the display turned over. -/
def withCells (s : State) (ps : List Pixel) : State := { s with fb := (s.fb.blit ps).1 }

/-- `s` with some keys pressed. -/
def withKeys (s : State) (ks : List (Fin 16)) : State := { s with keys := ks.foldl (fun (v : Keys) (k : Fin 16) => v.set k.val true) s.keys }

/-- The state after one step that runs the word `w`. -/
def after (s : State) (w : Nat) : Option State :=
  match step (s.withFetchWord 16 w) with
  | .next t => some t
  | _ => none

/-- The outcome of one step that runs the word `w`. -/
def outcome (s : State) (w : Nat) : StepReport := report (s.withFetchWord 16 w)

/-- The state an instruction leaves. -/
def result (a : Answer) : Option State :=
  match a with
  | .next t => some t
  | _ => none

/-- A core halted by an invalid opcode at 0x200 (V-FCH9). -/
def haltedState : State := { State.reset with fault := some ⟨.invalidOpcode, 0x200, 0x0000, 0⟩, dt := 3 }

/-! ### Configuration and well-formedness -/

theorem test_config_valid : Config.machine.valid = true := by decide
theorem test_config_too_small : ({ memSize := 0x201 } : Config).valid = false := by decide
theorem test_wellFormed_dontcare : (Instr.seVxVy 2 3 7).wellFormed = true := by decide
theorem test_strict_cls : (Instr.cls 5).wellFormedWith true = false := by decide
theorem test_strict_ret : (Instr.ret 0xA).wellFormedWith true = false := by decide
theorem test_strict_se : (Instr.seVxVy 2 3 7).wellFormedWith true = false := by decide
theorem test_strict_sne : (Instr.sneVxVy 2 3 1).wellFormedWith true = false := by decide
theorem test_strict_accepts_shift : (Instr.shr 3 1).wellFormedWith true = true := by decide
theorem test_canonical_shr : (Instr.shr 3 1).canonical = false := by decide
theorem test_canonical_shl : (Instr.shl 3 1).canonical = false := by decide
theorem test_canonical_cls : (Instr.cls 5).canonical = false := by decide

/-! ### One word of every row, written out bit by bit from R76 -/

theorem test_decode_control :
    decode 0b0000_0000_1110_1110 = .ok (.ret 0) ∧ decode 0b0001_1010_1011_1100 = .ok (.jp 0xABC) ∧
    decode 0b0010_1010_1011_1100 = .ok (.call 0xABC) ∧ decode 0b0011_0001_0100_0010 = .ok (.seVxKk 1 0x42) ∧
    decode 0b0100_0001_0100_0011 = .ok (.sneVxKk 1 0x43) ∧ decode 0b0101_0010_0011_0000 = .ok (.seVxVy 2 3 0) ∧
    decode 0b1001_0010_0011_0000 = .ok (.sneVxVy 2 3 0) ∧ decode 0b1011_0011_0000_0000 = .ok (.jpV0 0x300) := by decide

theorem test_decode_alu :
    decode 0b0110_0000_0000_0101 = .ok (.ldVxKk 0 5) ∧ decode 0b0111_0000_0000_0011 = .ok (.addVxKk 0 3) ∧
    decode 0b1000_1010_1011_0000 = .ok (.ldVxVy 10 11) ∧ decode 0b1000_1010_1011_0001 = .ok (.or 10 11) ∧
    decode 0b1000_1010_1011_0010 = .ok (.and 10 11) ∧ decode 0b1000_1010_1011_0011 = .ok (.xor 10 11) ∧
    decode 0b1000_1010_1011_0100 = .ok (.addVxVy 10 11) ∧ decode 0b1000_1010_1011_0101 = .ok (.sub 10 11) ∧
    decode 0b1000_0011_0001_0110 = .ok (.shr 3 1) ∧ decode 0b1000_1010_1011_0111 = .ok (.subn 10 11) ∧
    decode 0b1000_0011_0001_1110 = .ok (.shl 3 1) ∧ decode 0b1100_0000_0000_1111 = .ok (.rnd 0 0x0F) := by decide

theorem test_decode_memory :
    decode 0b1010_0001_0010_0011 = .ok (.ldI 0x123) ∧ decode 0b1111_0010_0001_1110 = .ok (.addIVx 2) ∧
    decode 0b1111_0000_0010_1001 = .ok (.ldFVx 0) ∧ decode 0b1111_0000_0011_0011 = .ok (.ldBVx 0) ∧
    decode 0b1111_0010_0101_0101 = .ok (.ldMemVx 2) ∧ decode 0b1111_1110_0110_0101 = .ok (.ldVxMem 14) := by decide

theorem test_decode_display_timer_input :
    decode 0b0000_0000_1110_0000 = .ok (.cls 0) ∧ decode 0b1101_0111_1010_0011 = .ok (.drw 7 10 3) ∧
    decode 0b1110_0000_1001_1110 = .ok (.skp 0) ∧ decode 0b1110_0000_1010_0001 = .ok (.sknp 0) ∧
    decode 0b1111_0011_0000_0111 = .ok (.ldVxDt 3) ∧ decode 0b1111_0101_0000_1010 = .ok (.ldVxK 5) ∧
    decode 0b1111_0011_0001_0101 = .ok (.ldDtVx 3) ∧ decode 0b1111_0011_0001_1000 = .ok (.ldStVx 3) := by decide

/-- V-FCH2 to V-FCH5. -/
theorem test_decode_invalid :
    [0x8008, 0x800D, 0x800F, 0xE000, 0xE09F, 0xE0A0, 0xE19D, 0xF000, 0xF008, 0xF01F, 0xF056, 0xF066, 0xFFFF, 0x0123, 0x00E1, 0x00FF].all
      (fun w => decide (decode w = .error (.invalidOpcode w))) = true := by decide

theorem test_decode_strict : decodeWith true 0x5237 = .error (.invalidOpcode 0x5237) ∧ decodeWith true 0x831E = .ok (.shl 3 1) := by
  decide
theorem test_decode_bytes : decodeBytes [0x60, 0x05, 0x70] = .ok (.ldVxKk 0 5, [0x70]) ∧ decodeBytes [0x60] = .error .truncated := by
  decide
theorem test_decode_table_word : decodeTableWord 16 0xD7A3 = some (.drw 7 10 3) := by decide

/-! ### Control transfer (V-CTL) -/

/-- V-CTL4: the popped entry stays. -/
theorem test_ret : (after { State.reset with sp := 1, stack := State.reset.stack.set 0 0x206 } 0x00EE).map
    (fun t => (t.pc, t.sp, t.stack[0])) = some (0x206, 0, 0x206) := by decide
/-- V-CTL6. -/
theorem test_ret_underflow : (after .reset 0x00EE).map (fun t => (t.fault, t.pc, t.sp)) =
    some (some ⟨.stackUnderflow, 0x200, 0x00EE, 0⟩, 0x200, 0) := by decide
/-- V-CTL1. -/
theorem test_jp : (after .reset 0x1ABC).map (fun t => t.pc) = some 0xABC := by decide
/-- V-CTL7. -/
theorem test_call : (after { State.reset with sp := 15 } 0x2300).map (fun t => (t.pc, t.sp, t.stack[15])) =
    some (0x300, 16, 0x202) := by decide
/-- V-CTL9. -/
theorem test_call_overflow : (after { State.reset with sp := 16 } 0x2300).map (fun t => (t.fault, t.pc, t.sp, t.stack[15])) =
    some (some ⟨.stackOverflow, 0x200, 0x2300, 0⟩, 0x200, 16, 0) := by decide
/-- V-CTL10, V-CTL11. -/
theorem test_se_kk : (after (withRegs .reset [(1, 0x42)]) 0x3142).map (fun t => t.pc) = some 0x204 ∧
    (after (withRegs .reset [(1, 0x42)]) 0x3143).map (fun t => t.pc) = some 0x202 := by decide
/-- V-CTL12, V-CTL13. -/
theorem test_sne_kk : (after (withRegs .reset [(1, 0x42)]) 0x4142).map (fun t => t.pc) = some 0x202 ∧
    (after (withRegs .reset [(1, 0x42)]) 0x4143).map (fun t => t.pc) = some 0x204 := by decide
/-- V-CTL16, V-CTL15. -/
theorem test_se_vy : (after (withRegs .reset [(2, 7), (3, 7)]) 0x5237).map (fun t => t.pc) = some 0x204 ∧
    (after (withRegs .reset [(2, 7), (3, 8)]) 0x5230).map (fun t => t.pc) = some 0x202 := by decide
/-- V-CTL18, V-CTL19. -/
theorem test_sne_vy : (after (withRegs .reset [(2, 7), (3, 8)]) 0x9230).map (fun t => t.pc) = some 0x204 ∧
    (after (withRegs .reset [(2, 7), (3, 7)]) 0x9230).map (fun t => t.pc) = some 0x202 := by decide
/-- V-CTL21, V-CTL22. -/
theorem test_jp_v0 : (after (withRegs .reset [(0, 0xFF)]) 0xBFFF).map (fun t => t.pc) = some 0x10FE ∧
    (after (withRegs .reset [(0, 1), (3, 0x77)]) 0xB300).map (fun t => t.pc) = some 0x301 := by decide

/-! ### Loads and ALU (V-ALU) -/

/-- V-ALU1. -/
theorem test_ld_kk : (after .reset 0x6A7F).map (fun t => (t.reg 10, t.pc)) = some (0x7F, 0x202) := by decide
/-- V-ALU3. -/
theorem test_add_kk : (after (withRegs .reset [(0, 0xFF), (15, 0x33)]) 0x7001).map (fun t => (t.reg 0, t.reg 15)) =
    some (0, 0x33) := by decide
/-- V-ALU6. -/
theorem test_ld_vy : (after (withRegs .reset [(0, 0x11), (1, 0x99)]) 0x8010).map (fun t => (t.reg 0, t.reg 1)) =
    some (0x99, 0x99) := by decide
/-- V-ALU7. -/
theorem test_or : (after (withRegs .reset [(0, 0xF0), (1, 0x0F), (15, 0x33)]) 0x8011).map (fun t => (t.reg 0, t.reg 15)) =
    some (0xFF, 0x33) := by decide
/-- V-ALU8. -/
theorem test_and : (after (withRegs .reset [(0, 0xF0), (1, 0x3C), (15, 0x33)]) 0x8012).map (fun t => (t.reg 0, t.reg 15)) =
    some (0x30, 0x33) := by decide
/-- V-ALU9. -/
theorem test_xor : (after (withRegs .reset [(0, 0xFF), (1, 0x0F), (15, 0x33)]) 0x8013).map (fun t => (t.reg 0, t.reg 15)) =
    some (0xF0, 0x33) := by decide
/-- V-ALU12. -/
theorem test_add : (after (withRegs .reset [(0, 0x80), (1, 0x7F), (15, 1)]) 0x8014).map (fun t => (t.reg 0, t.reg 15)) =
    some (0xFF, 0) := by decide
/-- V-ALU15, V-ALU16. -/
theorem test_add_vf : (after (withRegs .reset [(15, 0xF0), (1, 0x20)]) 0x8F14).map (fun t => t.reg 15) = some 1 ∧
    (after (withRegs .reset [(0, 1), (15, 0xFF)]) 0x80F4).map (fun t => (t.reg 0, t.reg 15)) = some (0, 1) := by decide
/-- V-ALU18. -/
theorem test_sub : (after (withRegs .reset [(0, 3), (1, 5)]) 0x8015).map (fun t => (t.reg 0, t.reg 15)) = some (0xFE, 0) := by decide
/-- V-ALU19, V-ALU21. -/
theorem test_sub_strict : (after (withRegs .reset [(0, 7), (1, 7), (15, 1)]) 0x8015).map (fun t => (t.reg 0, t.reg 15)) = some (0, 0) ∧
    (after (withRegs .reset [(15, 5), (1, 3)]) 0x8F15).map (fun t => t.reg 15) = some 1 := by decide
/-- V-ALU23. -/
theorem test_shr : (after (withRegs .reset [(3, 5), (1, 0xEE)]) 0x8316).map (fun t => (t.reg 3, t.reg 15, t.reg 1)) =
    some (2, 1, 0xEE) := by decide
/-- V-ALU28. -/
theorem test_shr_vf : (after (withRegs .reset [(15, 2)]) 0x8F06).map (fun t => t.reg 15) = some 0 := by decide
/-- V-ALU29. -/
theorem test_subn : (after (withRegs .reset [(0, 3), (1, 5)]) 0x8017).map (fun t => (t.reg 0, t.reg 1, t.reg 15)) =
    some (2, 5, 1) := by decide
/-- V-ALU30, V-ALU31. -/
theorem test_subn_borrow : (after (withRegs .reset [(0, 5), (1, 3)]) 0x8017).map (fun t => (t.reg 0, t.reg 15)) = some (0xFE, 0) ∧
    (after (withRegs .reset [(0, 9), (1, 9), (15, 1)]) 0x8017).map (fun t => (t.reg 0, t.reg 15)) = some (0, 0) := by decide
/-- V-ALU32. -/
theorem test_shl : (after (withRegs .reset [(3, 0x81), (1, 0xEE)]) 0x831E).map (fun t => (t.reg 3, t.reg 15, t.reg 1)) =
    some (2, 1, 0xEE) := by decide
/-- V-ALU36. -/
theorem test_shl_vf : (after (withRegs .reset [(15, 0x40)]) 0x8F0E).map (fun t => t.reg 15) = some 0 := by decide
/-- V-ALU37, V-ALU38. -/
theorem test_rnd : (result (rndWith 0xA7 0 0x0F .reset)).map (fun t => (t.reg 0, t.pc)) = some (0x07, 0x202) ∧
    (result (rndWith 0xA7 0 0xFF .reset)).map (fun t => t.reg 0) = some 0xA7 := by decide

/-! ### Index register and memory (V-IDX) -/

/-- V-IDX1. -/
theorem test_ld_i : (after .reset 0xA123).map (fun t => t.index) = some 0x123 := by decide
/-- V-IDX5, V-IDX7. -/
theorem test_add_i : (after { withRegs .reset [(0, 1)] with index := 0xFFF } 0xF01E).map (fun t => (t.index, t.reg 15)) =
      some (0x1000, 1) ∧
    (after { withRegs .reset [(0, 2)] with index := 0xFFFF } 0xF01E).map (fun t => (t.index, t.reg 15)) = some (1, 1) := by decide
/-- V-IDX8. -/
theorem test_add_i_vf : (after { withRegs .reset [(15, 5)] with index := 0x100 } 0xFF1E).map (fun t => (t.index, t.reg 15)) =
    some (0x105, 0) := by decide
/-- V-IDX9, V-IDX13. -/
theorem test_ld_f : (after (withRegs .reset [(0, 0x0A)]) 0xF029).map (fun t => t.index) = some 0x32 ∧
    (after (withRegs .reset [(0, 0xFF)]) 0xF029).map (fun t => t.index) = some 0x4FB := by decide
/-- V-IDX18, and the bytes the word itself takes. -/
theorem test_ld_b : (after { withRegs .reset [(0, 123)] with index := 0xFFD } 0xF033).map (fun t => t.mem) =
    some [(0x200, 0xF0), (0x201, 0x33), (0xFFD, 1), (0xFFE, 2), (0xFFF, 3)] := by decide
/-- V-IDX19: no partial effect. -/
theorem test_ld_b_fault : (after { withRegs .reset [(0, 123)] with index := 0xFFE } 0xF033).map (fun t => (t.fault, t.pc, t.mem)) =
    some (some ⟨.addressFault, 0x200, 0xF033, 0x1000⟩, 0x200, [(0x200, 0xF0), (0x201, 0x33)]) := by decide
/-- E8: V0 to V2 and not V3, `I` unchanged. -/
theorem test_ld_mem : (after { withRegs .reset [(0, 0x11), (1, 0x22), (2, 0x33), (3, 0x44)] with index := 0x400 } 0xF255).map
    (fun t => ([0x400, 0x401, 0x402, 0x403].map t.mem.read, t.index)) = some ([0x11, 0x22, 0x33, 0], 0x400) := by decide
/-- V-IDX21: one address too far. -/
theorem test_ld_mem_fault : (after { State.reset with index := 0xFF1 } 0xFF55).map (fun t => t.fault) =
    some (some ⟨.addressFault, 0x200, 0xFF55, 0x1000⟩) := by decide
/-- V-IDX26: the font, up to V4. -/
theorem test_ld_vx_mem : (after .reset 0xF465).map (fun t => [0, 1, 2, 3, 4, 5].map t.reg) =
    some [0xF0, 0x90, 0x90, 0x90, 0xF0, 0] := by decide
/-- V-IDX25. -/
theorem test_ld_vx_mem_fault : (after { State.reset with index := 0x2000 } 0xF065).map (fun t => t.fault) =
    some (some ⟨.addressFault, 0x200, 0xF065, 0x2000⟩) := by decide

/-! ### Display (V-DSP) -/

/-- V-DSP1. -/
theorem test_cls : (after (withCells (withRegs .reset [(15, 7)]) [(3, 5)]) 0x00E0).map
    (fun t => (t.fb.cell (3, 5), t.dirty, t.reg 15)) = some (false, true, 7) := by decide
/-- V-DSP4: the wrap of each coordinate on its own axis. -/
theorem test_drw_wraps : (after { withBytes (withRegs .reset [(0, 62), (1, 31)]) 0x300 [0xF0, 0x80] with index := 0x300 } 0xD012).map
    (fun t => ([(31, 62), (31, 63), (31, 0), (31, 1), (0, 62), (0, 0), (0, 1)].map t.fb.cell, t.reg 15, t.dirty)) =
    some ([true, true, true, true, true, false, false], 0, true) := by decide
/-- V-DSP7, V-DSP8: the collision. -/
theorem test_drw_collides :
    (after (withCells { withBytes .reset 0x300 [0x81] with index := 0x300 } [(0, 0)]) 0xD011).map
      (fun t => ([(0, 0), (0, 1), (0, 7)].map t.fb.cell, t.reg 15)) = some ([false, false, true], 1) ∧
    (after (withCells { withBytes .reset 0x300 [0x81] with index := 0x300 } [(0, 1)]) 0xD011).map
      (fun t => ([(0, 0), (0, 1), (0, 7)].map t.fb.cell, t.reg 15)) = some ([true, true, true], 0) := by decide

/-! ### Timers and keys (V-TMR) -/

/-- V-TMR1, V-TMR2. -/
theorem test_skp : (after (withKeys (withRegs .reset [(0, 10)]) [10]) 0xE09E).map (fun t => t.pc) = some 0x204 ∧
    (after (withKeys (withRegs .reset [(0, 10)]) [9, 11]) 0xE09E).map (fun t => t.pc) = some 0x202 := by decide
/-- V-TMR4. -/
theorem test_skp_fault : (after (withRegs .reset [(0, 0x10)]) 0xE09E).map (fun t => (t.fault, t.pc)) =
    some (some ⟨.keyIndexFault, 0x200, 0xE09E, 0x10⟩, 0x200) := by decide
/-- V-TMR3, V-TMR4. -/
theorem test_sknp : (after (withRegs .reset [(0, 10)]) 0xE0A1).map (fun t => t.pc) = some 0x204 ∧
    (after (withRegs .reset [(0, 0x10)]) 0xE0A1).map (fun t => t.fault) =
      some (some ⟨.keyIndexFault, 0x200, 0xE0A1, 0x10⟩) := by decide
/-- V-TMR7. -/
theorem test_ld_vx_dt : (after { State.reset with dt := 0x2A } 0xF307).map (fun t => (t.reg 3, t.dt)) = some (0x2A, 0x2A) := by decide
/-- V-TMR10. -/
theorem test_ld_vx_k : (after (withKeys .reset [7, 3]) 0xF50A).map (fun t => (t.reg 5, t.pc)) = some (3, 0x202) ∧
    outcome (withKeys .reset [7, 3]) 0xF50A = .retired := by decide
/-- V-TMR11. -/
theorem test_ld_vx_k_waits : (after .reset 0xF50A).map (fun t => (t.reg 5, t.pc)) = some (0, 0x200) ∧
    outcome .reset 0xF50A = .waitingForKey := by decide
/-- V-TMR8. -/
theorem test_ld_dt : (after (withRegs .reset [(3, 60)]) 0xF315).map (fun t => (t.dt, t.st)) = some (60, 0) := by decide
/-- V-TMR9. -/
theorem test_ld_st : (after (withRegs .reset [(3, 5)]) 0xF318).map (fun t => (t.st, t.dt)) = some (5, 0) := by decide
/-- V-TMR5, V-TMR6. -/
theorem test_ticks : ({ State.reset with dt := 2 } : State).tickDelay.dt = 1 ∧ State.reset.tickDelay.dt = 0 ∧
    ({ State.reset with st := 1, dt := 9 } : State).tickSound.st = 0 ∧
    ({ State.reset with st := 1, dt := 9 } : State).tickSound.dt = 9 := by decide

/-! ### Fetch and fatal conditions (V-FCH) -/

/-- V-FCH1: an empty memory. -/
theorem test_fetch_invalid : (result (step .reset)).map (fun t => (t.fault, t.pc)) =
    some (some ⟨.invalidOpcode, 0x200, 0x0000, 0⟩, 0x200) := by decide
/-- V-FCH7. -/
theorem test_fetch_out_of_range : (result (step { State.reset with pc := 0xFFF })).map (fun t => (t.fault, t.pc)) =
    some (some ⟨.addressFault, 0xFFF, 0, 0x1000⟩, 0xFFF) := by decide
/-- V-FCH6, V-FCH8. -/
theorem test_fetch_edges : (after { State.reset with pc := 0xFFE } 0x6005).map (fun t => (t.reg 0, t.pc)) = some (5, 0x1000) ∧
    (after { State.reset with pc := 0x201 } 0x6107).map (fun t => (t.reg 1, t.pc)) = some (7, 0x203) := by decide
/-- V-FCH9. -/
theorem test_halted : report haltedState = .halted := by decide
/-- V-TMR10 through the host's Step: the keys presented with the step are the ones it sees. -/
theorem test_host_step :
    (match perform (.step (withKeys .reset [7, 3]).keys) (State.reset.withFetchWord 16 0xF50A) with
     | .next (t, a) => some (t.reg 5, t.pc, a)
     | _ => none) = some (3, 0x202, .stepped .retired) := by decide
/-- V-FCH10, V-TMR13. -/
theorem test_reset_of_halted : haltedState.resetOp.fault = none ∧ haltedState.resetOp.pc = 0x200 ∧ haltedState.tickDelay.dt = 2 := by
  decide

/-! ### Witnesses: for every statement with hypotheses, a state and operands that meet them, one for each clause, at the edges -/

/-- A core about to run the word `w`. -/
def ready (w : Nat) : State := State.reset.withFetchWord 16 w

theorem witness_StepRunsTheDecodedInstruction :
    (ready 0x6005).fault = none ∧ (ready 0x6005).pc.toNat + 1 < 4096 ∧
    decode ((ready 0x6005).mem.read (ready 0x6005).pc.toNat ++ (ready 0x6005).mem.read ((ready 0x6005).pc.toNat + 1)) =
      .ok (.ldVxKk 0 5) := by decide

theorem witness_PlacedWordRunsNext :
    ({ State.reset with pc := 0xFFE } : State).pc.toNat + 1 < 4096 ∧ decodeTableWord 16 0x831E = some (.shl 3 1) := by decide

theorem witness_DecodeOfEncode : (Instr.shl 3 1).wellFormed = true ∧ (Instr.cls 0xF).wellFormed = true := by decide

theorem witness_EncodeOfDecode : decode 0x831E = .ok (.shl 3 1) := by decide

/-- A row is selected by the mask, and a word of no row by none. -/
theorem witness_DispatchAgreesWithOpcodeTable :
    (∃ row ∈ opcodeTable, row.1 = "SHL" ∧ (0x831E : Word) &&& row.2.2 = row.2.1) ∧
    ¬ ∃ row ∈ opcodeTable, (0x8008 : Word) &&& row.2.2 = row.2.1 := by decide

theorem witness_InvalidWordsRaiseInvalidOpcode :
    ((ready 0xFFFF).fault = none ∧ (ready 0xFFFF).fetch = .ok 0xFFFF ∧ InvalidWord 0xFFFF) ∧
    ((ready 0x8008).fault = none ∧ (ready 0x8008).fetch = .ok 0x8008 ∧ InvalidWord 0x8008) ∧
    ((ready 0x6005).fault = none ∧ (ready 0x6005).fetch = .ok 0x6005 ∧ ¬ InvalidWord 0x6005) := by
  unfold InvalidWord
  decide

theorem witness_StrictDecodeRejectsNonzeroFields :
    decodeWith true 0x00E0 = .ok (.cls 0) ∧ decode 0x0AEE = .ok (.ret 0xA) ∧ xBits 0x0AEE ≠ 0 := by decide

theorem witness_FetchReadsTwoBytesOrFaults :
    (({ State.reset with pc := 0xFFE } : State).pc.toNat ≤ 0xFFE) ∧
    (({ State.reset with pc := 0xFFF } : State).fault = none ∧ 0xFFE < ({ State.reset with pc := 0xFFF } : State).pc.toNat ∧
      ¬ 4096 ≤ ({ State.reset with pc := 0xFFF } : State).pc.toNat) ∧
    (({ State.reset with pc := 0x1000 } : State).fault = none ∧ 0xFFE < ({ State.reset with pc := 0x1000 } : State).pc.toNat ∧
      4096 ≤ ({ State.reset with pc := 0x1000 } : State).pc.toNat) := by decide

/-- For every row's encoding, a word that matches and one that does not. -/
theorem witness_encodings :
    (opcodeTable.map fun row => row.2.1).all (fun value => opcodeTable.any fun row => row.2.1 &&& row.2.2 == value) = true ∧
    opcodeTable.all (fun row => (0x8008 : Word) &&& row.2.2 != row.2.1) = true := by decide

theorem witness_RetPopsTheReturnAddress :
    ({ State.reset with sp := 1 } : State).sp ≠ 0 ∧ ({ State.reset with sp := 16 } : State).sp ≠ 0 ∧ State.reset.sp = 0 := by decide

/-- The state a call leaves, and one with the same stack and another display. -/
theorem witness_RetPopsTheReturnAddress_matching :
    let s := { State.reset with sp := 15 }
    s.sp.val < 16 ∧ ∃ t, exec (.call 0x300) s = .next t ∧
      ({ t with dt := 9 } : State).sp = t.sp ∧ ({ t with dt := 9 } : State).stack = t.stack ∧ (15 : Fin 16).val < t.sp.val :=
  ⟨by decide, _, rfl, rfl, rfl, by decide⟩

theorem witness_JpSetsThePc : State.reset.pc.toNat = (0x200 : Addr12).toNat ∧ State.reset.fault = none := by decide

theorem witness_CallPushesTheReturnAddress :
    State.reset.sp.val < 16 ∧ ({ State.reset with sp := 15 } : State).sp.val < 16 ∧ ({ State.reset with sp := 16 } : State).sp = 16 := by
  decide

theorem witness_CallThenRetGoesOnAfterTheCall :
    ({ State.reset with sp := 15 } : State).sp.val < 16 ∧ (0 : Fin 16).val ≠ ({ State.reset with sp := 15 } : State).sp.val := by decide

/-- A destination that is not VF, and a register that is neither. -/
theorem witness_destinations : (3 : RegIdx) ≠ 15 ∧ (4 : RegIdx) ≠ 3 ∧ (4 : RegIdx) ≠ 15 := by decide

theorem witness_LdBVxStoresThreeDigits :
    ({ State.reset with index := 0xFFD } : State).index.toNat + 2 < 4096 ∧
    4096 ≤ ({ State.reset with index := 0xFFE } : State).index.toNat + 2 := by decide

theorem witness_LdMemVxStoresTheRange :
    ({ State.reset with index := 0xFF0 } : State).index.toNat + (15 : RegIdx).val < 4096 ∧
    4096 ≤ ({ State.reset with index := 0xFF1 } : State).index.toNat + (15 : RegIdx).val := by decide

/-- `u` is the state after the store with the registers cleared. -/
theorem witness_LdVxMemLoadsTheRange :
    ({ State.reset with index := 0xFFF } : State).index.toNat + (0 : RegIdx).val < 4096 ∧
    4096 ≤ ({ State.reset with index := 0x1000 } : State).index.toNat + (0 : RegIdx).val ∧
    (let s := { withRegs .reset [(0, 0x11)] with index := 0x400 }
     ∃ t, exec (.ldMemVx 0) s = .next t ∧ s.index.toNat + (0 : RegIdx).val < 4096 ∧
       ({ t with v := State.reset.v } : State).index = s.index ∧ ({ t with v := State.reset.v } : State).mem = t.mem) :=
  ⟨by decide, by decide, _, rfl, by decide, rfl, rfl⟩

theorem witness_StoreIsSeenByTheNextFetch :
    let s := { State.reset with index := 0x202 }
    1 ≤ (1 : RegIdx).val ∧ s.index = s.pc + 2 ∧ s.index.toNat + (1 : RegIdx).val < 4096 := by decide

theorem witness_AddressFaultExactlyOutOfRange :
    (({ State.reset with pc := 0xFFF } : State).fault = none ∧ 4096 ≤ ({ State.reset with pc := 0xFFF } : State).pc.toNat + 1) ∧
    (dataLength (.drw 0 1 15) = some 15 ∧ 15 ≠ 0 ∧ 4096 < ({ State.reset with index := 0xFF2 } : State).index.toNat + 15) ∧
    (dataLength (.drw 0 1 15) = some 15 ∧ ¬ (15 ≠ 0 ∧ 4096 < ({ State.reset with index := 0xFF1 } : State).index.toNat + 15)) ∧
    (dataLength (.drw 0 1 0) = some 0 ∧ ¬ (0 ≠ 0 ∧ 4096 < ({ State.reset with index := 0xFFFF } : State).index.toNat + 0)) := by decide

/-- An `AddressFault` recorded before stays recorded under an instruction that takes none. -/
theorem witness_AddressFaultExactlyOutOfRange_kept :
    let s := { State.reset with fault := some ⟨.addressFault, 0x200, 0xF065, 0x2000⟩ }
    accessesMemory (.cls 0) = false ∧ ∃ t r, exec (.cls 0) s = .next t ∧ t.fault = some r ∧ r.code = .addressFault :=
  ⟨rfl, _, _, rfl, rfl, rfl⟩

/-- A sprite of one row, bit 7 set, over the cell (0, 0). -/
def spriteState (ps : List Pixel) : State := withCells { withBytes .reset 0x300 [0x80] with index := 0x300 } ps

theorem spriteState_covers (ps : List Pixel) : (spriteState ps).spriteCovers 0 1 1 (0, 0) :=
  ⟨0, by decide, 0, by decide,
    by show ((State.reset.mem.writeList 0x300 [0x80]).read 0x300).getLsbD 7 = true; decide, rfl, rfl⟩

theorem witness_DrwTogglesTheSpritesCells :
    ((spriteState []).index.toNat + (1 : Height).val ≤ 4096 ∧ (spriteState [(0, 0)]).spriteCovers 0 1 1 (0, 0) ∧
      (spriteState [(0, 0)]).fb.cell (0, 0) = true) ∧
    ((0 : Height).val = 0) ∧ ({ State.reset with index := 0xFF1 } : State).index.toNat + (15 : Height).val ≤ 4096 ∧
    ((15 : Height).val ≠ 0 ∧ 4096 < ({ State.reset with index := 0xFF2 } : State).index.toNat + (15 : Height).val) :=
  ⟨⟨by decide, spriteState_covers _, by decide⟩, by decide, by decide, by decide⟩

/-- A draw of no rows hits nothing. -/
theorem witness_DrwTogglesTheSpritesCells_no_hit : ¬ ∃ p, State.reset.spriteCovers 0 1 0 p ∧ State.reset.fb.cell p = true := by
  rintro ⟨p, ⟨r, hr, _⟩, _⟩
  exact absurd hr (Nat.not_lt_zero r)

theorem witness_DrawingTwiceRestoresTheDisplay :
    let s := spriteState [(0, 0)]
    ∃ t, exec (.drw 0 1 1) s = .next t ∧ s.index.toNat + (1 : Height).val ≤ 4096 ∧
      (let u := { s with fb := t.fb }
       u.index = s.index ∧ (∀ a, u.mem.read a = s.mem.read a) ∧ u.reg 0 = s.reg 0 ∧ u.reg 1 = s.reg 1 ∧ u.fb = t.fb) :=
  ⟨_, rfl, by decide, rfl, fun _ => rfl, rfl, rfl, rfl⟩

theorem witness_HostReadsTheDisplay : ∃ t a, perform .clearDirty haltedState = .next (t, a) := ⟨_, _, rfl⟩

theorem witness_KeySkipsTestOneKey :
    ((withRegs .reset [(0, 15)]).reg 0).toNat = (15 : Fin 16).val ∧ (State.reset.reg 0).toNat = (0 : Fin 16).val ∧
    15 < ((withRegs .reset [(0, 16)]).reg 0).toNat := by decide

theorem witness_KeyWaitStoresTheLowestKey :
    ((withKeys .reset [15]).keys[15] = true ∧ ∀ j : Fin 16, j < 15 → (withKeys .reset [15]).keys[j] = false) ∧
    ((withKeys .reset [0, 1]).keys[0] = true ∧ ∀ j : Fin 16, j < 0 → (withKeys .reset [0, 1]).keys[j] = false) ∧
    (∀ k : Fin 16, State.reset.keys[k] = false) := by decide

theorem witness_UnsatisfiedKeyWaitNeverMoves :
    (ready 0xF50A).fault = none ∧ (ready 0xF50A).fetch = .ok 0xF50A ∧ decode 0xF50A = .ok (.ldVxK 5) ∧
    ∀ k : Fin 16, (ready 0xF50A).keys[k] = false := by decide

theorem witness_StepOutcomes : State.reset.fault = none ∧ (ready 0x6005).fault = none ∧ (ready 0xF50A).fault = none := by decide

/-- A step from a running core that takes a fatal condition, and an instruction that does, for each of the four an instruction takes. -/
theorem witness_FaultsArePrecise : ∃ t r, State.reset.fault = none ∧ step State.reset = .next t ∧ t.fault = some r :=
  ⟨_, _, rfl, rfl, rfl⟩

theorem witness_OnlyTheListedInstructionsFault :
    (∃ t r, exec (.call 0x300) { State.reset with sp := 16 } = .next t ∧ t.fault = some r ∧ r.code = .stackOverflow) ∧
    (∃ t r, exec (.ret 0) State.reset = .next t ∧ t.fault = some r ∧ r.code = .stackUnderflow) ∧
    (∃ t r, exec (.ldBVx 0) { State.reset with index := 0xFFE } = .next t ∧ t.fault = some r ∧ r.code = .addressFault) ∧
    (∃ t r, exec (.skp 0) (withRegs .reset [(0, 16)]) = .next t ∧ t.fault = some r ∧ r.code = .keyIndexFault) :=
  ⟨⟨_, _, rfl, rfl, rfl⟩, ⟨_, _, rfl, rfl, rfl⟩, ⟨_, _, rfl, rfl, rfl⟩, ⟨_, _, rfl, rfl, rfl⟩⟩

theorem witness_HaltedUntilReset :
    haltedState.fault = some ⟨.invalidOpcode, 0x200, 0x0000, 0⟩ ∧ ∃ t a, perform .tickSound haltedState = .next (t, a) :=
  ⟨rfl, _, _, rfl⟩

theorem witness_StepStopsExactlyWhenHalted : haltedState.fault = some ⟨.invalidOpcode, 0x200, 0x0000, 0⟩ := rfl

theorem witness_ResetValues : 80 ≤ 80 ∧ 80 ≤ 0xFFF := by decide

theorem witness_LoadImageCopiesOrRefuses :
    (State.reset = State.reset.resetOp ∧ 0x200 + (List.replicate 3584 (0xAA : Byte)).length ≤ 4096) ∧
    (State.reset = State.reset.resetOp ∧ 4096 < 0x200 + (List.replicate 3585 (0xAA : Byte)).length) ∧
    haltedState ≠ haltedState.resetOp := by
  refine ⟨⟨rfl, by rw [List.length_replicate]⟩, ⟨rfl, by rw [List.length_replicate]; decide⟩, fun h => ?_⟩
  cases congrArg State.fault h

theorem witness_BootFetchesTheImage :
    0x200 + (([] : List Byte).length + 2) ≤ 4096 ∧ 0x200 + ((List.replicate 3582 (0 : Byte)).length + 2) ≤ 4096 := by
  rw [List.length_replicate]
  decide

theorem witness_OnlyTheListedInstructionsWrite :
    ∃ t, exec (.addVxVy 3 1) State.reset = .next t ∧ destination (.addVxVy 3 1) 4 = false ∧
      destination (.ldVxKk 3 1) 15 = false ∧ writesFlag (.ldVxKk 3 1) = false := ⟨_, rfl, rfl, rfl, rfl⟩

theorem witness_VfIsWrittenBySevenInstructions :
    (∃ t, exec (.addVxVy 3 1) State.reset = .next t ∧ t.fault = State.reset.fault ∧ writesFlag (.addVxVy 3 1) = true ∧
      State.reset.fault = none) ∧
    (∃ t, exec (.ldVxKk 3 1) State.reset = .next t ∧ t.fault = State.reset.fault ∧ writesFlag (.ldVxKk 3 1) = false ∧
      destination (.ldVxKk 3 1) 15 = false) := ⟨⟨_, rfl, rfl, rfl, rfl⟩, ⟨_, rfl, rfl, rfl, rfl⟩⟩

theorem witness_InstructionsDoNotReadUnlistedState :
    ∃ t, exec (.ldStVx 3) State.reset = .next t ∧ (∀ x, Instr.ldStVx 3 ≠ .ldVxDt x) ∧
      (∀ x, Instr.ldStVx 3 ≠ .skp x ∧ Instr.ldStVx 3 ≠ .sknp x ∧ Instr.ldStVx 3 ≠ .ldVxK x) ∧
      (∀ x y n, Instr.ldStVx 3 ≠ .drw x y n) ∧ (∀ nnn, Instr.ldStVx 3 ≠ .call nnn) ∧ (∀ x, Instr.ldStVx 3 ≠ .ret x) ∧
      (∀ x, Instr.ldStVx 3 ≠ .ldVxMem x) ∧ accessesMemory (.ldStVx 3) = false ∧ ∀ x, Instr.ldStVx 3 ≠ .addIVx x :=
  ⟨_, rfl, by simp, by simp, by simp, by simp, by simp, by simp, rfl, by simp⟩

/-- A state other than the one after reset that has the invariant and takes a step. -/
theorem witness_StepKeepsTheInvariant :
    ({ State.reset with dt := 3 } : State).Inv ∧ ∃ t, step { State.reset with dt := 3 } = .next t :=
  ⟨⟨rfl, by decide, by decide, fun _ h => nomatch h⟩, _, rfl⟩

theorem witness_EveryHostRunKeepsTheInvariant :
    (({ State.reset with dt := 3 } : State).Inv ∧ ∃ t a, perform .tickDelay { State.reset with dt := 3 } = .next (t, a)) ∧
    ∃ t, performAll [.reset, .tickDelay, .readFault] State.reset = .next t :=
  ⟨⟨⟨rfl, by decide, by decide, fun _ h => nomatch h⟩, _, _, rfl⟩, _, rfl⟩

end Sys2Proof.Tests
end

section
/-! PROOFS. The encoder gives back every word that decodes, so the word an instruction's fault records is the word fetched (R79, R81, R236). -/

namespace Sys2Proof

/-- A word is format `NNN` packed from its own fields (R72). -/
theorem packNnn_of_fields {w : Word} {op : Nat} (ho : (opField w).toNat = op) : packNnn op (nnnField w) = w := by
  have hop := (opField w).isLt
  apply BitVec.eq_of_toNat_eq
  rw [packNnn_toNat _ _ (by omega), nnnField_toNat]
  rw [opField_toNat] at ho
  omega

/-- A word is formats `XKK` and `X` packed from its own fields (R72). -/
theorem packXkk_of_fields {w : Word} {op kk : Nat} (ho : (opField w).toNat = op) (hk : (kkField w).toNat = kk) :
    packXkk op (xBits w).toNat kk = w := by
  have hop := (opField w).isLt
  have hkk := (kkField w).isLt
  apply BitVec.eq_of_toNat_eq
  rw [packXkk_toNat _ _ _ (by omega) (xBits w).isLt (by omega), xBits_toNat]
  rw [opField_toNat] at ho
  rw [kkField_toNat] at hk
  omega

/-- A word is formats `XYN` and `XY` packed from its own fields (R72). -/
theorem packXyn_of_fields {w : Word} {op n : Nat} (ho : (opField w).toNat = op) (hn : (nBits w).toNat = n) :
    packXyn op (xBits w).toNat (yBits w).toNat n = w := by
  have hop := (opField w).isLt
  have hnn := (nBits w).isLt
  apply BitVec.eq_of_toNat_eq
  rw [packXyn_toNat _ _ _ _ (by omega) (xBits w).isLt (yBits w).isLt (by omega), xBits_toNat, yBits_toNat]
  rw [opField_toNat] at ho
  rw [nBits_toNat] at hn
  omega

theorem encode_of_decode0 {w : Word} {i : Instr} (ho : opField w = 0x0#4) (h : decode0 w = some i) : encode i = w := by
  unfold decode0 at h
  split at h <;> rename_i hk <;> cases h <;> exact packXkk_of_fields (congrArg BitVec.toNat ho) (congrArg BitVec.toNat hk)

theorem encode_of_decode8 {w : Word} {i : Instr} (ho : opField w = 0x8#4) (h : decode8 w = some i) : encode i = w := by
  unfold decode8 at h
  split at h <;> rename_i hn <;> cases h <;> exact packXyn_of_fields (congrArg BitVec.toNat ho) (congrArg BitVec.toNat hn)

theorem encode_of_decodeE {w : Word} {i : Instr} (ho : opField w = 0xE#4) (h : decodeE w = some i) : encode i = w := by
  unfold decodeE at h
  split at h <;> rename_i hk <;> cases h <;> exact packXkk_of_fields (congrArg BitVec.toNat ho) (congrArg BitVec.toNat hk)

theorem encode_of_decodeF {w : Word} {i : Instr} (ho : opField w = 0xF#4) (h : decodeF w = some i) : encode i = w := by
  unfold decodeF at h
  split at h <;> rename_i hk <;> cases h <;> exact packXkk_of_fields (congrArg BitVec.toNat ho) (congrArg BitVec.toNat hk)

/-- Encoding what the dispatcher selected gives the word back: one case for each `op` (R74). -/
theorem encode_of_select {w : Word} {i : Instr} (h : select w = some i) : encode i = w := by
  unfold select at h
  split at h <;> rename_i ho
  case h_1 => exact encode_of_decode0 ho h
  case h_9 => exact encode_of_decode8 ho h
  case h_15 => exact encode_of_decodeE ho h
  case h_16 => exact encode_of_decodeF ho h
  case h_17 => cases h
  case h_2 | h_3 | h_11 | h_12 => cases h; exact packNnn_of_fields (congrArg BitVec.toNat ho)
  case h_4 | h_5 | h_7 | h_8 | h_13 => cases h; exact packXkk_of_fields (congrArg BitVec.toNat ho) rfl
  case h_6 | h_10 | h_14 => cases h; exact packXyn_of_fields (congrArg BitVec.toNat ho) rfl

/-- Encoding what a word decodes to gives the word back, its don't-care bits included (R79). -/
theorem encode_of_decode {w : Word} {i : Instr} (h : decode w = .ok i) : encode i = w :=
  encode_of_select (select_of_decode h)

end Sys2Proof
end

section
/-! PROOFS. Every answer of an instruction, by outcome: the equations of the instructions that test something first, the fatal conditions
an instruction can raise (R230), and `Effect`, everything an instruction can do to the state (R37). Frames and invariants follow from
`Effect` without unfolding an instruction again. -/

namespace Sys2Proof.Machine

/-! ### `loadRegs` field by field, and registers after a skip -/

section
variable (s : State) (first : Nat) (ks : List RegIdx)

@[simp] theorem State.loadRegs_index : (s.loadRegs first ks).index = s.index := by rw [(s.loadRegs_spec first ks).2]
@[simp] theorem State.loadRegs_pc : (s.loadRegs first ks).pc = s.pc := by rw [(s.loadRegs_spec first ks).2]
@[simp] theorem State.loadRegs_sp : (s.loadRegs first ks).sp = s.sp := by rw [(s.loadRegs_spec first ks).2]
@[simp] theorem State.loadRegs_stack : (s.loadRegs first ks).stack = s.stack := by rw [(s.loadRegs_spec first ks).2]
@[simp] theorem State.loadRegs_mem : (s.loadRegs first ks).mem = s.mem := by rw [(s.loadRegs_spec first ks).2]
@[simp] theorem State.loadRegs_fb : (s.loadRegs first ks).fb = s.fb := by rw [(s.loadRegs_spec first ks).2]
@[simp] theorem State.loadRegs_dirty : (s.loadRegs first ks).dirty = s.dirty := by rw [(s.loadRegs_spec first ks).2]
@[simp] theorem State.loadRegs_dt : (s.loadRegs first ks).dt = s.dt := by rw [(s.loadRegs_spec first ks).2]
@[simp] theorem State.loadRegs_st : (s.loadRegs first ks).st = s.st := by rw [(s.loadRegs_spec first ks).2]
@[simp] theorem State.loadRegs_fault : (s.loadRegs first ks).fault = s.fault := by rw [(s.loadRegs_spec first ks).2]
@[simp] theorem State.loadRegs_keys : (s.loadRegs first ks).keys = s.keys := by rw [(s.loadRegs_spec first ks).2]
@[simp] theorem State.loadRegs_draws : (s.loadRegs first ks).draws = s.draws := by rw [(s.loadRegs_spec first ks).2]

@[simp] theorem State.reg_loadRegs (k : RegIdx) :
    (s.loadRegs first ks).reg k = if k ∈ ks then s.mem.read (first + k.val) else s.reg k := (s.loadRegs_spec first ks).1 k

@[simp] theorem State.reg_skipIf (c : Bool) (k : RegIdx) : (s.skipIf c).reg k = s.reg k := by
  simp only [State.reg, State.skipIf_v]

end

/-! ### Instructions that test before they act: one equation per outcome -/

theorem State.sp_full_or_free (s : State) : s.sp = 16 ∨ s.sp.val < 16 :=
  (Nat.lt_or_eq_of_le (Nat.le_of_lt_succ s.sp.isLt)).symm.imp_left fun h => Fin.ext h

theorem State.sp_empty_or_used (s : State) : s.sp = 0 ∨ s.sp.val ≠ 0 :=
  (eq_or_ne s.sp.val 0).imp_left fun h => Fin.ext h

section
variable {s : State}

/-- Any of the four memory instructions, an address of its range beyond memory (R174). -/
theorem exec_of_outOfRange {i : Instr} {len a : Nat} (hl : dataLength i = some len)
    (hb : firstBad s.index.toNat len = some a) : exec i s = .next (s.faulted .addressFault (encode i) a) := by
  cases i <;> cases hl <;> simp only [exec, execDrw, execLdBVx, execLdMemVx, execLdVxMem, hb, raiseFault]

theorem exec_drw_of_inRange (x y : RegIdx) {n : Height} (hb : firstBad s.index.toNat n.val = none) :
    exec (.drw x y n) s = .next ({ s.advance with
      fb := (s.fb.blit (spritePixels ((s.reg x).toNat % width) ((s.reg y).toNat % height)
        (s.mem.readList s.index.toNat n.val))).1
      dirty := true }.setReg VF (flagByte (s.fb.blit (spritePixels ((s.reg x).toNat % width)
        ((s.reg y).toNat % height) (s.mem.readList s.index.toNat n.val))).2)) := by
  simp only [exec, execDrw, hb]

theorem exec_ldBVx_of_inRange (x : RegIdx) (hb : firstBad s.index.toNat 3 = none) :
    exec (.ldBVx x) s = .next { s.advance with mem := s.mem.writeList s.index.toNat (bcdDigits (s.reg x)) } := by
  simp only [exec, execLdBVx, hb]

theorem exec_ldMemVx_of_inRange {x : RegIdx} (hb : firstBad s.index.toNat (x.val + 1) = none) :
    exec (.ldMemVx x) s =
      .next { s.advance with mem := s.mem.writeList s.index.toNat ((regsUpTo x).map s.reg) } := by
  simp only [exec, execLdMemVx, hb]

theorem exec_ldVxMem_of_inRange {x : RegIdx} (hb : firstBad s.index.toNat (x.val + 1) = none) :
    exec (.ldVxMem x) s = .next (s.advance.loadRegs s.index.toNat (regsUpTo x)) := by
  simp only [exec, execLdVxMem, hb]

theorem exec_call_of_full (nnn : Addr12) (h : s.sp = 16) :
    exec (.call nnn) s = .next (s.faulted .stackOverflow (encode (.call nnn)) 0) := by
  simp [exec, execCall, State.pushReturn, h, raiseFault]

theorem exec_call_of_free (nnn : Addr12) (h : s.sp.val < 16) :
    exec (.call nnn) s = .next { s with
      stack := s.stack.set s.sp.val (s.pc + 2), sp := ⟨s.sp.val + 1, by omega⟩, pc := addr16 nnn } := by
  simp [exec, execCall, State.pushReturn, h, State.setPc, State.advance]

theorem exec_ret_of_empty (x : Nibble) (h : s.sp = 0) :
    exec (.ret x) s = .next (s.faulted .stackUnderflow (encode (.ret x)) 0) := by
  simp [exec, execRet, State.popReturn, h, raiseFault]

theorem exec_ret_of_used (x : Nibble) (h : s.sp.val ≠ 0) :
    exec (.ret x) s = .next { s with
      sp := ⟨s.sp.val - 1, by omega⟩, pc := s.stack[s.sp.val - 1]'(by omega) } := by
  simp [exec, execRet, State.popReturn, h, State.setPc]

/-- Either key skip, the register's value no key (R216). -/
theorem exec_of_noKey {i : Instr} {x : RegIdx} (hi : i = .skp x ∨ i = .sknp x) (h : keyOf (s.reg x) = none) :
    exec i s = .next (s.faulted .keyIndexFault (encode i) (s.reg x).toNat) := by
  obtain rfl | rfl := hi
  · simp only [exec, execSkp, h, raiseFault]
  · simp only [exec, execSknp, h, raiseFault]

theorem exec_skp_of_key {x : RegIdx} {k : Fin 16} (h : keyOf (s.reg x) = some k) :
    exec (.skp x) s = .next (s.skipIf (s.key k)) := by
  simp only [exec, execSkp, h]

theorem exec_sknp_of_key {x : RegIdx} {k : Fin 16} (h : keyOf (s.reg x) = some k) :
    exec (.sknp x) s = .next (s.skipIf (!s.key k)) := by
  simp only [exec, execSknp, h]

theorem exec_ldVxK_of_noneHeld (x : RegIdx) (h : s.lowestKey = none) : exec (.ldVxK x) s = .next s := by
  simp only [exec, execLdVxK, h]

theorem exec_ldVxK_of_lowest (x : RegIdx) {k : Fin 16} (h : s.lowestKey = some k) :
    exec (.ldVxK x) s = .next (s.advance.setReg x (BitVec.ofNat 8 k.val)) := by
  simp only [exec, execLdVxK, h]

end

/-! ### What an instruction can do -/

/-- The fatal conditions an instruction can raise from a state, with the code and the info recorded (R230, R232 to R235). -/
inductive Raises (s : State) : Instr → FaultCode → Nat → Prop
  | stackOverflow (nnn : Addr12) (h : s.sp = 16) : Raises s (.call nnn) .stackOverflow 0
  | stackUnderflow (x : Nibble) (h : s.sp = 0) : Raises s (.ret x) .stackUnderflow 0
  | addressFault {i : Instr} {len : Nat} (hl : dataLength i = some len) (h0 : len ≠ 0) (h : memSize < s.index.toNat + len) :
      Raises s i .addressFault (max s.index.toNat memSize)
  | keyIndexFault {i : Instr} {x : RegIdx} (hi : i = .skp x ∨ i = .sknp x) (h : 15 < (s.reg x).toNat) :
      Raises s i .keyIndexFault (s.reg x).toNat

theorem Raises.of_firstBad {s : State} {i : Instr} {len a : Nat} (hl : dataLength i = some len)
    (hb : firstBad s.index.toNat len = some a) : Raises s i .addressFault a := by
  obtain ⟨h0, h, rfl⟩ := (firstBad_eq_some _ _ _).mp hb
  exact .addressFault hl h0 h

/-- Everything an instruction can do to a state, grouped by what is written (the "written by" column of R37); the values written to
registers, timers and cells are left open. -/
inductive Effect (s : State) : Instr → State → Prop
  /-- a fatal condition is taken and nothing else changes (R236) -/
  | fault {i : Instr} {code : FaultCode} {info : Nat} (h : Raises s i code info) :
      Effect s i (s.faulted code (encode i) info)
  /-- a key-wait with no key pressed (R213) -/
  | wait (x : RegIdx) : Effect s (.ldVxK x) s
  /-- the destination alone is written -/
  | load {i : Instr} (x : RegIdx) (b : Byte) (hd : ∀ k, destination i k = (k == x)) (hw : writesFlag i = false) :
      Effect s i (s.advance.setReg x b)
  /-- the destination is written, then VF (R153) -/
  | result {i : Instr} (x : RegIdx) (b : Byte) (c : Bool) (hd : ∀ k, destination i k = (k == x)) (hw : writesFlag i = true) :
      Effect s i (s.advance.setResultAndFlag x b c)
  /-- the destination is written and a random byte drawn (R151) -/
  | random (x : RegIdx) (kk b : Byte) : Effect s (.rnd x kk) (s.advance.setReg x b).nextDraw
  /-- the registers of a range are loaded from memory (R176) -/
  | loadRange (x : RegIdx) : Effect s (.ldVxMem x) (s.advance.loadRegs s.index.toNat (regsUpTo x))
  /-- one instruction word is skipped or not (R127) -/
  | skip {i : Instr} (c : Bool) (hw : writesFlag i = false) : Effect s i (s.skipIf c)
  /-- a jump, no further than 0x0FFF + 0xFF (R24) -/
  | jump {i : Instr} (a : Word) (ha : a.toNat ≤ 0x10FE) (hw : writesFlag i = false) : Effect s i (s.advance.setPc a)
  /-- a call with an entry free (R122) -/
  | call (nnn : Addr12) (h : s.sp.val < 16) :
      Effect s (.call nnn) { s with
        stack := s.stack.set s.sp.val (s.pc + 2), sp := ⟨s.sp.val + 1, by omega⟩, pc := addr16 nnn }
  /-- a return with an entry in use (R120) -/
  | ret (x : Nibble) (h : s.sp.val ≠ 0) :
      Effect s (.ret x) { s with sp := ⟨s.sp.val - 1, by omega⟩, pc := s.stack[s.sp.val - 1]'(by omega) }
  | setIndex (nnn : Addr12) (a : Word) : Effect s (.ldI nnn) (s.advance.setIndex a)
  | setGlyph (x : RegIdx) (a : Word) : Effect s (.ldFVx x) (s.advance.setIndex a)
  | addIndex (x : RegIdx) (a : Word) (c : Bool) : Effect s (.addIVx x) ((s.advance.setIndex a).setReg VF (flagByte c))
  | setDelay (x : RegIdx) (b : Byte) : Effect s (.ldDtVx x) { s.advance with dt := b }
  | setSound (x : RegIdx) (b : Byte) : Effect s (.ldStVx x) { s.advance with st := b }
  | blank (x : Nibble) : Effect s (.cls x) { s.advance with fb := Grid.blank, dirty := true }
  | draw (x y : RegIdx) (n : Height) (g : Grid) (c : Bool) :
      Effect s (.drw x y n) ({ s.advance with fb := g, dirty := true }.setReg VF (flagByte c))
  /-- bytes are stored from `I` on, every address inside memory (R56) -/
  | store {i : Instr} (bs : List Byte) (hi : ∃ x, i = .ldBVx x ∨ i = .ldMemVx x) (hb : s.index.toNat + bs.length ≤ memSize) :
      Effect s i { s.advance with mem := s.mem.writeList s.index.toNat bs }

/-- The bound of R24 on the target of an indexed jump. -/
theorem addr16_add_byte16_le (nnn : Addr12) (b : Byte) : (addr16 nnn + byte16 b).toNat ≤ 0x10FE := by
  have := nnn.isLt
  have := b.isLt
  simp only [addr16, byte16, BitVec.toNat_add, BitVec.toNat_setWidth]
  omega

theorem addr16_le (nnn : Addr12) : (addr16 nnn).toNat ≤ 0x10FE := by
  have := nnn.isLt
  simp only [addr16, BitVec.toNat_setWidth]
  omega

/-- Every instruction answers a next state, and what it did is one of the effects. -/
theorem exec_answers (i : Instr) (s : State) : ∃ t, exec i s = .next t ∧ Effect s i t := by
  cases i with
  | cls x => exact ⟨_, rfl, .blank x⟩
  | ret x =>
    obtain h | h := s.sp_empty_or_used
    · exact ⟨_, exec_ret_of_empty x h, .fault (.stackUnderflow x h)⟩
    · exact ⟨_, exec_ret_of_used x h, .ret x h⟩
  | jp nnn => exact ⟨_, rfl, .jump _ (addr16_le nnn) rfl⟩
  | call nnn =>
    obtain h | h := s.sp_full_or_free
    · exact ⟨_, exec_call_of_full nnn h, .fault (.stackOverflow nnn h)⟩
    · exact ⟨_, exec_call_of_free nnn h, .call nnn h⟩
  | seVxKk | sneVxKk | seVxVy | sneVxVy => exact ⟨_, rfl, .skip _ rfl⟩
  | ldVxKk x | addVxKk x | ldVxVy x | or x | and x | xor x | ldVxDt x => exact ⟨_, rfl, .load x _ (fun _ => rfl) rfl⟩
  | addVxVy x | sub x | shr x | subn x | shl x => exact ⟨_, rfl, .result x _ _ (fun _ => rfl) rfl⟩
  | ldI nnn => exact ⟨_, rfl, .setIndex nnn _⟩
  | jpV0 nnn => exact ⟨_, rfl, .jump _ (addr16_add_byte16_le nnn _) rfl⟩
  | rnd x kk => exact ⟨_, rfl, .random x kk _⟩
  | drw x y n =>
    cases hb : firstBad s.index.toNat n.val with
    | some a => exact ⟨_, exec_of_outOfRange rfl hb, .fault (.of_firstBad rfl hb)⟩
    | none => exact ⟨_, exec_drw_of_inRange x y hb, .draw x y n _ _⟩
  | skp x =>
    cases hk : keyOf (s.reg x) with
    | none => exact ⟨_, exec_of_noKey (.inl rfl) hk, .fault (.keyIndexFault (.inl rfl) ((keyOf_eq_none _).mp hk))⟩
    | some k => exact ⟨_, exec_skp_of_key hk, .skip _ rfl⟩
  | sknp x =>
    cases hk : keyOf (s.reg x) with
    | none => exact ⟨_, exec_of_noKey (.inr rfl) hk, .fault (.keyIndexFault (.inr rfl) ((keyOf_eq_none _).mp hk))⟩
    | some k => exact ⟨_, exec_sknp_of_key hk, .skip _ rfl⟩
  | ldVxK x =>
    cases hk : s.lowestKey with
    | none => exact ⟨_, exec_ldVxK_of_noneHeld x hk, .wait x⟩
    | some k => exact ⟨_, exec_ldVxK_of_lowest x hk, .load x _ (fun _ => rfl) rfl⟩
  | ldDtVx x => exact ⟨_, rfl, .setDelay x _⟩
  | ldStVx x => exact ⟨_, rfl, .setSound x _⟩
  | addIVx x => exact ⟨_, rfl, .addIndex x _ _⟩
  | ldFVx x => exact ⟨_, rfl, .setGlyph x _⟩
  | ldBVx x =>
    cases hb : firstBad s.index.toNat 3 with
    | some a => exact ⟨_, exec_of_outOfRange rfl hb, .fault (.of_firstBad rfl hb)⟩
    | none =>
      have hle := ((firstBad_eq_none _ _).mp hb).resolve_left (by decide)
      exact ⟨_, exec_ldBVx_of_inRange x hb, .store _ ⟨x, .inl rfl⟩ hle⟩
  | ldMemVx x =>
    cases hb : firstBad s.index.toNat (x.val + 1) with
    | some a => exact ⟨_, exec_of_outOfRange rfl hb, .fault (.of_firstBad rfl hb)⟩
    | none =>
      have hle := ((firstBad_eq_none _ _).mp hb).resolve_left (Nat.succ_ne_zero _)
      exact ⟨_, exec_ldMemVx_of_inRange hb, .store _ ⟨x, .inr rfl⟩ (by rwa [List.length_map, length_regsUpTo])⟩
  | ldVxMem x =>
    cases hb : firstBad s.index.toNat (x.val + 1) with
    | some a => exact ⟨_, exec_of_outOfRange rfl hb, .fault (.of_firstBad rfl hb)⟩
    | none => exact ⟨_, exec_ldVxMem_of_inRange hb, .loadRange x⟩

/-- An instruction that answers had one of the effects. -/
theorem exec_effect {i : Instr} {s t : State} (h : exec i s = .next t) : Effect s i t := by
  obtain ⟨u, hu, he⟩ := exec_answers i s
  rw [hu] at h
  cases h
  exact he

end Sys2Proof.Machine
end

section
/-! PROOFS. What each piece of state is written by (R37) and what the seven flag writers leave in VF (R22), read off the effects. -/

namespace Sys2Proof.Machine

section
variable {i : Instr} {s t : State}

/-! ### Frames: a piece of state is as before, or the instruction is listed as writing it -/

theorem Effect.reg_eq (e : Effect s i t) (k : RegIdx) (hd : destination i k = false)
    (hw : k = VF → writesFlag i = false) : t.reg k = s.reg k := by
  cases e with
  | load x b hx =>
    have hk : k ≠ x := by simpa [hx] using hd
    simp [hk]
  | result x b c hx hf =>
    have hk : k ≠ x := by simpa [hx] using hd
    have hv : k ≠ VF := fun h => Bool.false_ne_true ((hw h).symm.trans hf)
    simp [hk, hv]
  | random x kk b =>
    have hk : k ≠ x := by simpa [destination] using hd
    simp [hk]
  | loadRange x =>
    have hk : k ∉ regsUpTo x := by simpa [destination, mem_regsUpTo] using hd
    simp [hk]
  | addIndex x a c =>
    have hv : k ≠ VF := fun h => Bool.false_ne_true (hw h).symm
    simp [hv]
  | draw x y n g c =>
    have hv : k ≠ VF := fun h => Bool.false_ne_true (hw h).symm
    rw [State.reg_setReg, if_neg hv]
    rfl
  | skip c => exact s.reg_skipIf c k
  | _ => rfl

theorem Effect.index_eq (e : Effect s i t) :
    t.index = s.index ∨ (∃ nnn, i = .ldI nnn) ∨ ∃ x, i = .addIVx x ∨ i = .ldFVx x := by
  cases e with
  | setIndex nnn => exact .inr (.inl ⟨nnn, rfl⟩)
  | addIndex x => exact .inr (.inr ⟨x, .inl rfl⟩)
  | setGlyph x => exact .inr (.inr ⟨x, .inr rfl⟩)
  | _ => exact .inl (by simp)

theorem Effect.sp_eq (e : Effect s i t) : t.sp = s.sp ∨ (∃ nnn, i = .call nnn) ∨ ∃ x, i = .ret x := by
  cases e with
  | call nnn => exact .inr (.inl ⟨nnn, rfl⟩)
  | ret x => exact .inr (.inr ⟨x, rfl⟩)
  | _ => exact .inl (by simp)

theorem Effect.stack_eq (e : Effect s i t) : t.stack = s.stack ∨ ∃ nnn, i = .call nnn := by
  cases e with
  | call nnn => exact .inr ⟨nnn, rfl⟩
  | _ => exact .inl (by simp)

theorem Effect.mem_eq (e : Effect s i t) : t.mem = s.mem ∨ ∃ x, i = .ldBVx x ∨ i = .ldMemVx x := by
  cases e with
  | store bs hi => exact .inr hi
  | _ => exact .inl (by simp)

theorem Effect.display_eq (e : Effect s i t) :
    t.fb = s.fb ∧ t.dirty = s.dirty ∨ (∃ x, i = .cls x) ∨ ∃ x y n, i = .drw x y n := by
  cases e with
  | blank x => exact .inr (.inl ⟨x, rfl⟩)
  | draw x y n => exact .inr (.inr ⟨x, y, n, rfl⟩)
  | _ => exact .inl (by simp)

theorem Effect.dt_eq (e : Effect s i t) : t.dt = s.dt ∨ ∃ x, i = .ldDtVx x := by
  cases e with
  | setDelay x => exact .inr ⟨x, rfl⟩
  | _ => exact .inl (by simp)

theorem Effect.st_eq (e : Effect s i t) : t.st = s.st ∨ ∃ x, i = .ldStVx x := by
  cases e with
  | setSound x => exact .inr ⟨x, rfl⟩
  | _ => exact .inl (by simp)

theorem Effect.keys_eq (e : Effect s i t) : t.keys = s.keys := by
  cases e <;> simp

theorem Effect.draws_eq (e : Effect s i t) : t.draws = s.draws ∨ ∃ x kk, i = .rnd x kk := by
  cases e with
  | random x kk => exact .inr ⟨x, kk, rfl⟩
  | _ => exact .inl (by simp)

/-- `FAULT` is as before, or a fatal condition the instruction can raise is recorded and nothing else changed (R236). -/
theorem Effect.fault_eq (e : Effect s i t) :
    t.fault = s.fault ∨ ∃ code info, Raises s i code info ∧ t = s.faulted code (encode i) info := by
  cases e with
  | fault hr => exact .inr ⟨_, _, hr, rfl⟩
  | _ => exact .inl (by simp)

/-- Only these instructions can raise a fatal condition (R230). -/
theorem Raises.listed {code : FaultCode} {info : Nat} (h : Raises s i code info) :
    accessesMemory i = true ∨ (∃ nnn, i = .call nnn) ∨ (∃ x, i = .ret x) ∨ ∃ x, i = .skp x ∨ i = .sknp x := by
  cases h with
  | stackOverflow nnn => exact .inr (.inl ⟨nnn, rfl⟩)
  | stackUnderflow x => exact .inr (.inr (.inl ⟨x, rfl⟩))
  | addressFault hl => exact .inl (by rw [accessesMemory, hl]; rfl)
  | keyIndexFault hi => exact .inr (.inr (.inr ⟨_, hi⟩))

/-! ### The flag -/

theorem flagByte_eq (c : Bool) : flagByte c = 0 ∨ flagByte c = 1 := by
  cases c
  · exact .inl rfl
  · exact .inr rfl

/-- What a flag writer that completes leaves in VF: the flag is written last, whatever the destination (R22, R153). -/
theorem Effect.flag_eq (e : Effect s i t) (hw : writesFlag i = true) (hf : t.fault = none) :
    t.reg VF = 0 ∨ t.reg VF = 1 := by
  cases e with
  | result x b c => simpa using flagByte_eq c
  | addIndex x a c => simpa using flagByte_eq c
  | draw x y n g c => simpa using flagByte_eq c
  | fault => cases hf
  | load x b hd hn | skip c hn | jump a ha hn => rw [hn] at hw; cases hw
  | store bs hi => obtain ⟨x, rfl | rfl⟩ := hi <;> cases hw
  | _ => cases hw

end

/-- Settles O52: each clause is the frame of one piece of state, read off the effect of the instruction. -/
theorem onlyTheListedInstructionsWrite : Obligations.OnlyTheListedInstructionsWrite := by
  intro i s t h
  have e := exec_effect h
  refine ⟨e.reg_eq, e.index_eq, e.sp_eq, e.stack_eq, e.mem_eq, e.display_eq, e.dt_eq, e.st_eq, e.keys_eq, e.draws_eq, ?_⟩
  exact e.fault_eq.imp_right fun ⟨_, _, hr, _⟩ => hr.listed

/-- Settles O53: a completing flag writer leaves a flag byte in VF, and the frame of the registers covers the others. -/
theorem vfIsWrittenBySevenInstructions : Obligations.VfIsWrittenBySevenInstructions := by
  intro i s t h hf
  have e := exec_effect h
  exact ⟨fun hw hs => e.flag_eq hw (hf.trans hs), fun hw hd => e.reg_eq VF hd fun _ => hw⟩

end Sys2Proof.Machine
end

section
/-! PROOFS. The invariant of the machine is kept by every step and by every operation of the host (R24, R50, R236). Each part of it has a
lemma over the effects; the bound on `PC` uses that an instruction that runs was fetched from inside memory (R101). -/

namespace Sys2Proof.Machine

section
variable {i : Instr} {s t : State}

/-! ### The parts of the invariant over one instruction -/

theorem Effect.mem_wf (e : Effect s i t) (hm : s.mem.wf = true) : t.mem.wf = true := by
  cases e with
  | store bs hi hb => exact Memory.wf_writeList _ _ _ hm (.inr hb)
  | _ => simpa using hm

/-- A call pushes `a_pc + 2`, which is at most 0x1000 since the call was fetched from inside memory (R122). -/
theorem Effect.stack_le (e : Effect s i t) (hp : s.pc.toNat + 2 ≤ memSize) (hs : ∀ k : Fin 16, s.stack[k].toNat ≤ 0x1000) :
    ∀ k : Fin 16, t.stack[k].toNat ≤ 0x1000 := by
  cases e with
  | call nnn h =>
    intro k
    have hpc : (s.pc + 2).toNat ≤ 0x1000 := by
      rw [BitVec.toNat_add]
      exact Nat.le_trans (Nat.mod_le _ _) hp
    simp only [Fin.getElem_fin, Vector.getElem_set]
    split
    · exact hpc
    · exact hs k
  | _ => simpa using hs

/-- The farthest a `PC` can be after an instruction: 0x10FE, by an indexed jump (R24, R128). -/
theorem Effect.pc_le (e : Effect s i t) (hp : s.pc.toNat + 2 ≤ memSize) (hs : ∀ k : Fin 16, s.stack[k].toNat ≤ 0x1000) :
    t.pc.toNat ≤ 0x10FE := by
  have hmem : memSize = 4096 := rfl
  have next : (s.pc + 2).toNat ≤ 0x10FE := by
    rw [BitVec.toNat_add]
    exact Nat.le_trans (Nat.mod_le _ _) (show s.pc.toNat + 2 ≤ 0x10FE by omega)
  have skipped : (s.pc + 4).toNat ≤ 0x10FE := by
    rw [BitVec.toNat_add]
    exact Nat.le_trans (Nat.mod_le _ _) (show s.pc.toNat + 4 ≤ 0x10FE by omega)
  cases e with
  | fault | wait => show s.pc.toNat ≤ 0x10FE; omega
  | jump a ha => exact ha
  | call nnn => exact addr16_le nnn
  | ret x h => exact Nat.le_trans (hs ⟨s.sp.val - 1, by omega⟩) (by decide)
  | skip c =>
    rw [State.skipIf_pc]
    split
    · exact skipped
    · exact next
  | loadRange x => rw [State.loadRegs_pc]; exact next
  | _ => exact next

/-- The record of a fatal condition explains the state, which shows it still (R236). -/
theorem Raises.explains {code : FaultCode} {info : Nat} {w : Word} (hr : Raises s i code info) (hw : s.fetch = .ok w)
    (hd : decode w = .ok i) :
    FaultRecord.explains ⟨code, s.pc, encode i, info⟩ (s.faulted code (encode i) info) := by
  rw [encode_of_decode hd]
  cases hr with
  | stackOverflow nnn h => exact ⟨rfl, Nat.two_pow_pos 17, hw, ⟨nnn, hd⟩, h, rfl⟩
  | stackUnderflow x h => exact ⟨rfl, Nat.two_pow_pos 17, hw, ⟨x, hd⟩, h, rfl⟩
  | addressFault hl h0 h =>
    have hi : max s.index.toNat memSize < 2 ^ 17 := max_lt (Nat.lt_trans s.index.isLt (by decide)) (by decide)
    exact ⟨rfl, hi, le_max_right _ _, .inr ⟨hw, rfl, i, _, hd, hl, h0, h⟩⟩
  | @keyIndexFault _ x hi h =>
    have hskip : decode w = .ok (.skp x) ∨ decode w = .ok (.sknp x) := by
      obtain rfl | rfl := hi
      · exact .inl hd
      · exact .inr hd
    exact ⟨rfl, Nat.lt_trans (s.reg x).isLt (by decide), hw, x, hskip, h, rfl⟩

/-- An instruction that was fetched and runs keeps the invariant. -/
theorem exec_keeps_inv {w : Word} (hi : s.Inv) (hf : s.fault = none) (hw : s.fetch = .ok w) (hd : decode w = .ok i)
    (h : exec i s = .next t) : t.Inv := by
  have e := exec_effect h
  have hp := ((s.fetch_eq_ok w).mp hw).1
  refine ⟨e.mem_wf hi.mem, e.stack_le hp hi.stack, e.pc_le hp hi.stack, fun r hr => ?_⟩
  rcases e.fault_eq with heq | ⟨code, info, hraise, rfl⟩
  · rw [heq, hf] at hr; cases hr
  · cases hr; exact hraise.explains hw hd

/-- A fatal condition whose record explains the state keeps the invariant. -/
theorem State.Inv.faulted {code : FaultCode} {word : Word} {info : Nat} (hi : s.Inv)
    (h : FaultRecord.explains ⟨code, s.pc, word, info⟩ (s.faulted code word info)) : (s.faulted code word info).Inv :=
  ⟨hi.mem, hi.stack, hi.pc, fun _ hr => by cases hr; exact h⟩

/-- A fetch out of range is explained by its record (R101, R234). -/
theorem explains_of_fetch_error {a : Nat} (h : s.fetch = .error a) :
    FaultRecord.explains ⟨.addressFault, s.pc, 0, a⟩ (s.faulted .addressFault 0 a) := by
  obtain ⟨hp, rfl⟩ := (s.fetch_eq_error a).mp h
  have hi : max s.pc.toNat memSize < 2 ^ 17 := max_lt (Nat.lt_trans s.pc.isLt (by decide)) (by decide)
  exact ⟨rfl, hi, le_max_right _ _, .inl ⟨Nat.le_of_lt_succ hp, rfl, rfl⟩⟩

/-- Every step keeps the invariant: a fetch out of range, an invalid word, or an instruction. -/
theorem step_keeps_inv (hi : s.Inv) (h : step s = .next t) : t.Inv := by
  obtain ⟨hf, ⟨a, ha, rfl⟩ | ⟨w, hw, hd, rfl⟩ | ⟨w, i, hw, hd, hexec⟩⟩ := step_cases h
  · exact hi.faulted (explains_of_fetch_error ha)
  · exact hi.faulted ⟨rfl, Nat.two_pow_pos 17, hw, hd, rfl⟩
  · exact exec_keeps_inv hi hf hw hd hexec

/-! ### The operations of the host -/

/-- The invariant speaks of nothing but these elements of the state. -/
theorem State.Inv.congr (hi : s.Inv) (hv : t.v = s.v) (hx : t.index = s.index) (hp : t.pc = s.pc) (hsp : t.sp = s.sp)
    (hst : t.stack = s.stack) (hm : t.mem = s.mem) (hf : t.fault = s.fault) : t.Inv := by
  obtain ⟨mem, stack, pc, fault⟩ := hi
  refine ⟨hm ▸ mem, hst ▸ stack, hp ▸ pc, fun r hr => ?_⟩
  have hfetch : t.fetch = s.fetch := by rw [State.fetch, State.fetch, hp, hm]
  have h := fault r (hf ▸ hr)
  simpa only [FaultRecord.explains, State.reg, hfetch, hv, hx, hp, hsp] using h

/-- `Reset` gives the invariant, whatever the state was (R270, R271). -/
theorem resetOp_inv : s.resetOp.Inv := by
  have hz : ∀ k : Fin 16, ((Vector.replicate 16 0 : Vector Word 16)[k]).toNat ≤ 0x1000 := by simp
  exact ⟨State.reset_mem_wf, hz, (by decide : State.reset.pc.toNat ≤ 0x10FE), fun _ h => nomatch h⟩

theorem reset_inv : State.reset.Inv := resetOp_inv (s := State.reset)

/-- An image is loaded into the state `Reset` leaves, inside memory (R273, R274). -/
theorem loadImage_keeps_inv {img : List Byte} (hi : s.Inv) (h : s.loadImage img = .next t) : t.Inv := by
  unfold State.loadImage at h
  split at h
  · rename_i hs
    have hf : s.fault = none := congrArg State.fault hs
    split at h
    · cases h
    · rename_i hfit
      cases h
      exact ⟨Memory.wf_writeList _ _ _ hi.mem (.inr (Nat.le_of_not_lt hfit)), hi.stack, hi.pc,
        fun _ hr => nomatch hr.symm.trans hf⟩
  · cases h

theorem writeKeys_inv (keys : Keys) (hi : s.Inv) : (s.writeKeys keys).Inv :=
  hi.congr rfl rfl rfl rfl rfl rfl rfl

theorem hostStep_keeps_inv {keys : Keys} {a : Response} (hi : s.Inv) (h : s.hostStep keys = .next (t, a)) : t.Inv := by
  have hk := writeKeys_inv keys hi
  simp only [State.hostStep] at h
  cases hstep : step (s.writeKeys keys) with
  | next u => rw [hstep] at h; cases h; exact step_keeps_inv hk hstep
  | fault f => rw [hstep] at h; cases h; exact hk
  | refused r => rw [hstep] at h; cases h

/-- Every operation of the host that answers keeps the invariant. -/
theorem perform_keeps_inv {op : HostOp} {a : Response} (hi : s.Inv) (h : perform op s = .next (t, a)) : t.Inv := by
  cases op with
  | reset => cases h; exact resetOp_inv
  | loadImage img =>
    simp only [perform] at h
    cases hl : s.loadImage img with
    | next u => rw [hl] at h; cases h; exact loadImage_keeps_inv hi hl
    | fault f => rw [hl] at h; cases h
    | refused r => rw [hl] at h; cases h
  | step keys => exact hostStep_keeps_inv hi h
  | tickDelay | tickSound | clearDirty => cases h; exact hi.congr rfl rfl rfl rfl rfl rfl rfl
  | readFB | readDirty | readFault => cases h; exact hi

/-- The invariant holds after every list of operations from a state that has it. -/
theorem performAll_keeps_inv {ops : List HostOp} (hi : s.Inv) (h : performAll ops s = .next t) : t.Inv := by
  induction ops generalizing s with
  | nil => cases h; exact hi
  | cons op ops ih =>
    simp only [performAll] at h
    cases hop : perform op s with
    | next p => rw [hop] at h; exact ih (perform_keeps_inv hi hop) h
    | fault f => rw [hop] at h; cases h
    | refused r => rw [hop] at h; cases h

end

/-- Settles O56: each way a step can go keeps the invariant. -/
theorem stepKeepsTheInvariant : Obligations.StepKeepsTheInvariant :=
  fun _ _ => step_keeps_inv

/-- Settles O57: each operation keeps the invariant, then by induction on the list of operations. -/
theorem everyHostRunKeepsTheInvariant : Obligations.EveryHostRunKeepsTheInvariant :=
  ⟨fun _ _ _ _ => perform_keeps_inv, fun _ _ => performAll_keeps_inv reset_inv⟩

end Sys2Proof.Machine
end

section
/-! PROOFS. What an instruction cannot learn (R37, read by). `AgreeBut e s s'` says that two states agree on everything but the element `e`;
every operation an instruction is made of takes states that agree to states that agree, so every instruction that does not read `e`
does (`exec_agreeBut`). -/

namespace Sys2Proof.Machine

/-- The elements of the state whose readers R37 lists, but for the registers and `PC`, which every instruction may read. -/
inductive Element where
  | dirty | st | dt | keys | fb | callStack | mem | index

/-- The readers of an element (the "read by" column of R37). -/
def reads : Element → Instr → Bool
  | .dt, .ldVxDt _ => true
  | .keys, .skp _ | .keys, .sknp _ | .keys, .ldVxK _ => true
  | .fb, .drw _ _ _ => true
  | .callStack, .call _ | .callStack, .ret _ => true
  | .mem, .drw _ _ _ | .mem, .ldVxMem _ => true
  | .index, .addIVx _ => true
  | .index, i => accessesMemory i
  | _, _ => false

/-- `s` with the element `e` as it is in `u`. -/
def State.withElement (s : State) (e : Element) (u : State) : State :=
  match e with
  | .dirty => { s with dirty := u.dirty }
  | .st => { s with st := u.st }
  | .dt => { s with dt := u.dt }
  | .keys => { s with keys := u.keys }
  | .fb => { s with fb := u.fb }
  | .callStack => { s with sp := u.sp, stack := u.stack }
  | .mem => { s with mem := u.mem }
  | .index => { s with index := u.index }

/-- The two states agree on everything but `e`. -/
structure State.AgreeBut (e : Element) (s s' : State) : Prop where
  v     : s.v = s'.v
  pc    : s.pc = s'.pc
  fault : s.fault = s'.fault
  draws : s.draws = s'.draws
  index : e ≠ .index → s.index = s'.index
  sp    : e ≠ .callStack → s.sp = s'.sp
  stack : e ≠ .callStack → s.stack = s'.stack
  mem   : e ≠ .mem → s.mem = s'.mem
  fb    : e ≠ .fb → s.fb = s'.fb
  dirty : e ≠ .dirty → s.dirty = s'.dirty
  dt    : e ≠ .dt → s.dt = s'.dt
  st    : e ≠ .st → s.st = s'.st
  keys  : e ≠ .keys → s.keys = s'.keys

/-- Agreement but on `e` is equality once `e` is filled in from the other state. -/
theorem State.agreeBut_iff {e : Element} {s s' : State} : s.AgreeBut e s' ↔ s' = s.withElement e s' := by
  constructor
  · rintro ⟨⟩
    cases s
    cases s'
    cases e <;> simp_all [State.withElement]
  · intro h
    rw [h]
    cases e <;> constructor <;> simp [State.withElement]

theorem ne_of_reads {e e' : Element} {i : Instr} (hr : reads e i = false) (h : reads e' i = true) : e ≠ e' := by
  rintro rfl
  rw [hr] at h
  cases h

section
variable {e : Element} {s s' : State} {i : Instr}

/-! ### The operations keep the agreement -/

theorem State.AgreeBut.reg (h : s.AgreeBut e s') (x : RegIdx) : s.reg x = s'.reg x := by
  rw [State.reg, State.reg, h.v]

theorem State.AgreeBut.setReg (h : s.AgreeBut e s') (x : RegIdx) {b b' : Byte} (hb : b = b') :
    (s.setReg x b).AgreeBut e (s'.setReg x b') :=
  { h with v := by rw [State.setReg_v, State.setReg_v, h.v, hb] }

theorem State.AgreeBut.setPc (h : s.AgreeBut e s') {a a' : Word} (ha : a = a') : (s.setPc a).AgreeBut e (s'.setPc a') :=
  { h with pc := ha }

theorem State.AgreeBut.setIndex (h : s.AgreeBut e s') {a a' : Word} (ha : a = a') :
    (s.setIndex a).AgreeBut e (s'.setIndex a') :=
  { h with index := fun _ => ha }

theorem State.AgreeBut.advance (h : s.AgreeBut e s') : s.advance.AgreeBut e s'.advance :=
  h.setPc (by rw [h.pc])

theorem State.AgreeBut.skipIf (h : s.AgreeBut e s') {c c' : Bool} (hc : c = c') : (s.skipIf c).AgreeBut e (s'.skipIf c') := by
  subst hc
  cases c
  · exact h.advance
  · exact h.advance.advance

theorem State.AgreeBut.setResultAndFlag (h : s.AgreeBut e s') (x : RegIdx) {b b' : Byte} {c c' : Bool} (hb : b = b')
    (hc : c = c') : (s.setResultAndFlag x b c).AgreeBut e (s'.setResultAndFlag x b' c') :=
  (h.setReg x hb).setReg VF (by rw [hc])

theorem State.AgreeBut.nextDraw (h : s.AgreeBut e s') : s.nextDraw.AgreeBut e s'.nextDraw :=
  { h with draws := congrArg (· + 1) h.draws }

theorem State.AgreeBut.setDisplay (h : s.AgreeBut e s') {g g' : Grid} (hg : g = g') :
    { s with fb := g, dirty := true }.AgreeBut e { s' with fb := g', dirty := true } :=
  { h with fb := fun _ => hg, dirty := fun _ => rfl }

theorem State.AgreeBut.setDt (h : s.AgreeBut e s') {b b' : Byte} (hb : b = b') : { s with dt := b }.AgreeBut e { s' with dt := b' } :=
  { h with dt := fun _ => hb }

theorem State.AgreeBut.setSt (h : s.AgreeBut e s') {b b' : Byte} (hb : b = b') : { s with st := b }.AgreeBut e { s' with st := b' } :=
  { h with st := fun _ => hb }

theorem State.AgreeBut.setMem (h : s.AgreeBut e s') {m m' : Memory} (hm : e ≠ .mem → m = m') :
    { s with mem := m }.AgreeBut e { s' with mem := m' } :=
  { h with mem := hm }

theorem State.AgreeBut.loadRegs (h : s.AgreeBut e s') (hm : e ≠ .mem) (first : Nat) (ks : List RegIdx) :
    (s.loadRegs first ks).AgreeBut e (s'.loadRegs first ks) := by
  have hv : (s.loadRegs first ks).v = (s'.loadRegs first ks).v :=
    State.v_ext _ _ fun k => by rw [State.reg_loadRegs, State.reg_loadRegs, h.mem hm, h.reg]
  rw [(s.loadRegs_spec first ks).2, (s'.loadRegs_spec first ks).2]
  exact { h with v := hv }

theorem State.AgreeBut.faulted (h : s.AgreeBut e s') (code : FaultCode) (word : Word) (info : Nat) :
    (s.faulted code word info).AgreeBut e (s'.faulted code word info) :=
  { h with fault := congrArg (fun pc => some (FaultRecord.mk code pc word info)) h.pc }

theorem State.AgreeBut.lowestKey (h : s.AgreeBut e s') (hk : e ≠ .keys) : s.lowestKey = s'.lowestKey := by
  simp only [State.lowestKey, State.key, h.keys hk]

end

/-! ### The instructions -/

/-- Both runs answer, and the states they answer agree but on `e`. -/
def AnswersAgree (e : Element) (a a' : Answer) : Prop :=
  ∃ t t', a = .next t ∧ a' = .next t' ∧ t.AgreeBut e t'

section
variable {e : Element} {s s' : State} {i : Instr}

theorem State.AgreeBut.exec_of_outOfRange (h : s.AgreeBut e s') (hx : e ≠ .index) {len a : Nat} (hl : dataLength i = some len)
    (hb : firstBad s.index.toNat len = some a) : AnswersAgree e (exec i s) (exec i s') :=
  ⟨_, _, Machine.exec_of_outOfRange hl hb, Machine.exec_of_outOfRange hl (h.index hx ▸ hb), h.faulted _ _ _⟩

theorem State.AgreeBut.exec_of_noKey (h : s.AgreeBut e s') {x : RegIdx} (hi : i = .skp x ∨ i = .sknp x)
    (hk : keyOf (s.reg x) = none) : AnswersAgree e (exec i s) (exec i s') := by
  refine ⟨_, _, Machine.exec_of_noKey hi hk, Machine.exec_of_noKey hi (h.reg x ▸ hk), ?_⟩
  rw [h.reg]
  exact h.faulted _ _ _

/-- An instruction that does not read `e` takes two states that agree but on `e` to two such states. -/
theorem State.AgreeBut.exec (h : s.AgreeBut e s') (hr : reads e i = false) : AnswersAgree e (exec i s) (exec i s') := by
  cases i with
  | cls x => exact ⟨_, _, rfl, rfl, h.advance.setDisplay rfl⟩
  | ret x =>
    have hc := ne_of_reads hr (e' := .callStack) rfl
    obtain h0 | h0 := s.sp_empty_or_used
    · exact ⟨_, _, exec_ret_of_empty x h0, exec_ret_of_empty x (h.sp hc ▸ h0), h.faulted _ _ _⟩
    · have h0' : s'.sp.val ≠ 0 := h.sp hc ▸ h0
      refine ⟨_, _, exec_ret_of_used x h0, exec_ret_of_used x h0', ?_⟩
      exact { h with pc := by simp only [h.sp hc, h.stack hc], sp := fun he => by simp only [h.sp hc] }
  | jp nnn => exact ⟨_, _, rfl, rfl, h.advance.setPc rfl⟩
  | call nnn =>
    have hc := ne_of_reads hr (e' := .callStack) rfl
    obtain h16 | h16 := s.sp_full_or_free
    · exact ⟨_, _, exec_call_of_full nnn h16, exec_call_of_full nnn (h.sp hc ▸ h16), h.faulted _ _ _⟩
    · have h16' : s'.sp.val < 16 := h.sp hc ▸ h16
      refine ⟨_, _, exec_call_of_free nnn h16, exec_call_of_free nnn h16', ?_⟩
      exact { h with
        pc := rfl, sp := fun he => by simp only [h.sp hc], stack := fun he => by simp only [h.sp hc, h.stack hc, h.pc] }
  | seVxKk | sneVxKk | seVxVy | sneVxVy => exact ⟨_, _, rfl, rfl, h.skipIf (by simp only [h.reg])⟩
  | ldVxKk x | addVxKk x | ldVxVy x | or x | and x | xor x =>
    exact ⟨_, _, rfl, rfl, h.advance.setReg x (by simp only [h.reg])⟩
  | addVxVy x | sub x | shr x | subn x | shl x =>
    exact ⟨_, _, rfl, rfl, h.advance.setResultAndFlag x (by simp only [h.reg]) (by simp only [h.reg])⟩
  | ldI nnn => exact ⟨_, _, rfl, rfl, h.advance.setIndex rfl⟩
  | jpV0 nnn => exact ⟨_, _, rfl, rfl, h.advance.setPc (by simp only [h.reg])⟩
  | rnd x kk =>
    exact ⟨_, _, rfl, rfl, (h.advance.setReg x (by simp only [State.randomByte, h.draws])).nextDraw⟩
  | drw x y n =>
    have hx := ne_of_reads hr (e' := .index) rfl
    have hm := ne_of_reads hr (e' := .mem) rfl
    have hg := ne_of_reads hr (e' := .fb) rfl
    cases hb : firstBad s.index.toNat n.val with
    | some a => exact h.exec_of_outOfRange hx rfl hb
    | none =>
      refine ⟨_, _, exec_drw_of_inRange x y hb, exec_drw_of_inRange x y (h.index hx ▸ hb), ?_⟩
      exact (h.advance.setDisplay (by simp only [h.reg, h.index hx, h.mem hm, h.fb hg])).setReg VF
        (by simp only [h.reg, h.index hx, h.mem hm, h.fb hg])
  | skp x =>
    have hk := ne_of_reads hr (e' := .keys) rfl
    cases hx : keyOf (s.reg x) with
    | none => exact h.exec_of_noKey (.inl rfl) hx
    | some k =>
      exact ⟨_, _, exec_skp_of_key hx, exec_skp_of_key (h.reg x ▸ hx), h.skipIf (by simp only [State.key, h.keys hk])⟩
  | sknp x =>
    have hk := ne_of_reads hr (e' := .keys) rfl
    cases hx : keyOf (s.reg x) with
    | none => exact h.exec_of_noKey (.inr rfl) hx
    | some k =>
      exact ⟨_, _, exec_sknp_of_key hx, exec_sknp_of_key (h.reg x ▸ hx), h.skipIf (by simp only [State.key, h.keys hk])⟩
  | ldVxDt x => exact ⟨_, _, rfl, rfl, h.advance.setReg x (h.dt (ne_of_reads hr rfl))⟩
  | ldVxK x =>
    have hl := h.lowestKey (ne_of_reads hr rfl)
    cases hk : s.lowestKey with
    | none => exact ⟨_, _, exec_ldVxK_of_noneHeld x hk, exec_ldVxK_of_noneHeld x (hl ▸ hk), h⟩
    | some k =>
      exact ⟨_, _, exec_ldVxK_of_lowest x hk, exec_ldVxK_of_lowest x (hl ▸ hk), h.advance.setReg x rfl⟩
  | ldDtVx x => exact ⟨_, _, rfl, rfl, h.advance.setDt (h.reg x)⟩
  | ldStVx x => exact ⟨_, _, rfl, rfl, h.advance.setSt (h.reg x)⟩
  | addIVx x =>
    have hx := h.index (ne_of_reads hr rfl)
    exact ⟨_, _, rfl, rfl,
      (h.advance.setIndex (by simp only [h.reg, hx])).setReg VF (by simp only [h.reg, hx])⟩
  | ldFVx x => exact ⟨_, _, rfl, rfl, h.advance.setIndex (by simp only [h.reg])⟩
  | ldBVx x =>
    have hx := ne_of_reads hr (e' := .index) rfl
    cases hb : firstBad s.index.toNat 3 with
    | some a => exact h.exec_of_outOfRange hx rfl hb
    | none =>
      refine ⟨_, _, exec_ldBVx_of_inRange x hb, exec_ldBVx_of_inRange x (h.index hx ▸ hb), ?_⟩
      exact h.advance.setMem fun hm => by simp only [h.reg, h.index hx, h.mem hm]
  | ldMemVx x =>
    have hx := ne_of_reads hr (e' := .index) rfl
    cases hb : firstBad s.index.toNat (x.val + 1) with
    | some a => exact h.exec_of_outOfRange hx rfl hb
    | none =>
      refine ⟨_, _, exec_ldMemVx_of_inRange hb, exec_ldMemVx_of_inRange (h.index hx ▸ hb), ?_⟩
      have hregs : s.reg = s'.reg := funext h.reg
      exact h.advance.setMem fun hm => by rw [hregs, h.index hx, h.mem hm]
  | ldVxMem x =>
    have hx := ne_of_reads hr (e' := .index) rfl
    have hm := ne_of_reads hr (e' := .mem) rfl
    cases hb : firstBad s.index.toNat (x.val + 1) with
    | some a => exact h.exec_of_outOfRange hx rfl hb
    | none =>
      refine ⟨_, _, exec_ldVxMem_of_inRange hb, exec_ldVxMem_of_inRange (h.index hx ▸ hb), ?_⟩
      rw [h.index hx]
      exact h.advance.loadRegs hm _ _

/-- An instruction that does not read `e`, run from a state that differs only there, ends in a state that differs only there. -/
theorem exec_withElement {t u : State} (h : exec i s = .next t) (hu : u = s.withElement e u) (hr : reads e i = false) :
    ∃ t', exec i u = .next t' ∧ t' = t.withElement e t' := by
  obtain ⟨t₁, t', h₁, h', ha⟩ := (State.agreeBut_iff.mpr hu).exec (i := i) hr
  rw [h] at h₁
  cases h₁
  exact ⟨t', h', State.agreeBut_iff.mp ha⟩

end

/-- Settles O54: each clause is `exec_withElement` at one element; for the latch and the call stack the frame (R37, written by) says in
addition that the element stays as it was given. -/
theorem instructionsDoNotReadUnlistedState : Obligations.InstructionsDoNotReadUnlistedState := by
  intro i s t h
  refine ⟨fun d => ?dirty, fun b => ?st, fun b hi => ?dt, fun k hi => ?keys, fun g hi => ?fb, fun k c hcall hret => ?callStack,
    fun m hdrw hload => ?mem, fun a hacc hadd => ?index⟩
  case dirty => exact exec_withElement (e := .dirty) h rfl rfl
  case st => exact exec_withElement (e := .st) h rfl rfl
  case dt =>
    refine exec_withElement (e := .dt) h rfl ?_
    cases i with
    | ldVxDt x => exact absurd rfl (hi x)
    | _ => rfl
  case keys =>
    have hr : reads .keys i = false := by
      cases i with
      | skp x => exact absurd rfl (hi x).1
      | sknp x => exact absurd rfl (hi x).2.1
      | ldVxK x => exact absurd rfl (hi x).2.2
      | _ => rfl
    obtain ⟨u, hu, hut⟩ := exec_withElement (u := { s with keys := k }) h rfl hr
    have hk : u.keys = k := (exec_effect hu).keys_eq
    rw [hu, hut, State.withElement, hk]
  case fb =>
    refine exec_withElement (e := .fb) h rfl ?_
    cases i with
    | drw x y n => exact absurd rfl (hi x y n)
    | _ => rfl
  case callStack =>
    have hr : reads .callStack i = false := by
      cases i with
      | call nnn => exact absurd rfl (hcall nnn)
      | ret x => exact absurd rfl (hret x)
      | _ => rfl
    obtain ⟨u, hu, hut⟩ := exec_withElement (u := { s with sp := k, stack := c }) h rfl hr
    have hsp : u.sp = k := (exec_effect hu).sp_eq.resolve_right
      (not_or.mpr ⟨fun ⟨nnn, hi⟩ => hcall nnn hi, fun ⟨x, hi⟩ => hret x hi⟩)
    have hst : u.stack = c := (exec_effect hu).stack_eq.resolve_right fun ⟨nnn, hi⟩ => hcall nnn hi
    rw [hu, hut, State.withElement, hsp, hst]
  case mem =>
    refine exec_withElement (e := .mem) h rfl ?_
    cases i with
    | drw x y n => exact absurd rfl (hdrw x y n)
    | ldVxMem x => exact absurd rfl (hload x)
    | _ => rfl
  case index =>
    refine exec_withElement (e := .index) h rfl ?_
    cases i with
    | addIVx x => exact absurd rfl (hadd x)
    | _ => exact hacc

end Sys2Proof.Machine
end

section
/-! PROOFS. The fields of a word, by the formulas on the word and on its two bytes, and the fields a packed word was given (R71, R72). -/

namespace Sys2Proof

/-! ### Fields of a word -/

/-- A field's number is the word shifted down to the field's lowest bit and masked to its width (R71). -/
theorem extract_toNat_eq_shift_mask (w : Word) (start : Nat) {n : Nat} (hn : n < 17) :
    (w.extractLsb' start n).toNat = ((w >>> start) &&& BitVec.ofNat 16 (2 ^ n - 1)).toNat := by
  have hmask : 2 ^ n - 1 < 2 ^ 16 := by
    have := Nat.pow_le_pow_right (show 0 < 2 by omega) (show n ≤ 16 by omega)
    omega
  rw [BitVec.extractLsb'_toNat, BitVec.toNat_and, BitVec.toNat_ushiftRight, BitVec.toNat_ofNat, Nat.mod_eq_of_lt hmask,
    Nat.and_two_pow_sub_one_eq_mod]

/-- `nnn` straddles the bytes: the low nibble of the first, then the second (R71). -/
theorem nnnField_wordOfBytes (b0 b1 : Byte) : nnnField (wordOfBytes b0 b1) = b0.extractLsb' 0 4 ++ b1 := by
  rw [nnnField, wordOfBytes, BitVec.extractLsb'_append_eq_ite]
  simp

/-- Settles O4: the formula on the word is one lemma at each field's place; on two bytes a field lies inside one byte, but for `nnn`. -/
theorem fieldsOfEveryWord : Obligations.FieldsOfEveryWord := by
  refine ⟨fun w => ⟨?op, ?x, ?y, ?n, ?kk, ?nnn, rfl, rfl, rfl⟩, fun b0 b1 => ⟨?op', ?x', ?y', ?n', ?kk', ?nnn'⟩⟩
  case op => exact extract_toNat_eq_shift_mask w 12 (by decide)
  case x => exact extract_toNat_eq_shift_mask w 8 (by decide)
  case y => exact extract_toNat_eq_shift_mask w 4 (by decide)
  case n => exact extract_toNat_eq_shift_mask w 0 (by decide)
  case kk => exact extract_toNat_eq_shift_mask w 0 (by decide)
  case nnn => exact extract_toNat_eq_shift_mask w 0 (by decide)
  case op' | x' => exact BitVec.extractLsb'_append_eq_of_le (by decide)
  case y' | n' => exact BitVec.extractLsb'_append_eq_of_add_le (by decide)
  case kk' => exact BitVec.extractLsb'_append_eq_right
  case nnn' => exact nnnField_wordOfBytes b0 b1

/-! ### Fields of a packed word -/

section
variable {op x y n kk : Nat}

theorem opField_packNnn (nnn : Addr12) (ho : op < 16) : opField (packNnn op nnn) = BitVec.ofNat 4 op :=
  BitVec.eq_of_toNat_eq (by rw [Laws.PrimaryOpcode.ofNnn op nnn ho, BitVec.toNat_ofNat, Nat.mod_eq_of_lt ho])

theorem opField_packXkk (ho : op < 16) (hx : x < 16) (hk : kk < 256) : opField (packXkk op x kk) = BitVec.ofNat 4 op :=
  BitVec.eq_of_toNat_eq (by rw [Laws.PrimaryOpcode.ofXkk op x kk ho hx hk, BitVec.toNat_ofNat, Nat.mod_eq_of_lt ho])

theorem nnnField_packNnn (nnn : Addr12) (ho : op < 16) : nnnField (packNnn op nnn) = nnn := by
  apply BitVec.eq_of_toNat_eq
  rw [nnnField_toNat, packNnn_toNat _ _ ho]
  omega

theorem xBits_packXkk (ho : op < 16) (hx : x < 16) (hk : kk < 256) : xBits (packXkk op x kk) = BitVec.ofNat 4 x := by
  apply BitVec.eq_of_toNat_eq
  rw [xBits_toNat, packXkk_toNat _ _ _ ho hx hk, BitVec.toNat_ofNat]
  omega

theorem kkField_packXkk (ho : op < 16) (hx : x < 16) (hk : kk < 256) : kkField (packXkk op x kk) = BitVec.ofNat 8 kk := by
  apply BitVec.eq_of_toNat_eq
  rw [kkField_toNat, packXkk_toNat _ _ _ ho hx hk, BitVec.toNat_ofNat]
  omega

/-- Format `XYN` is format `XKK` with the low byte of `y` and `n` (R72). -/
theorem packXyn_eq_packXkk (op x y n : Nat) : packXyn op x y n = packXkk op x (y * 16 + n) := by
  rw [packXyn, packXkk, Nat.add_assoc]

theorem opField_packXyn (ho : op < 16) (hx : x < 16) (hy : y < 16) (hn : n < 16) :
    opField (packXyn op x y n) = BitVec.ofNat 4 op := by
  rw [packXyn_eq_packXkk, opField_packXkk ho hx (by omega)]

theorem xBits_packXyn (ho : op < 16) (hx : x < 16) (hy : y < 16) (hn : n < 16) :
    xBits (packXyn op x y n) = BitVec.ofNat 4 x := by
  rw [packXyn_eq_packXkk, xBits_packXkk ho hx (by omega)]

theorem yBits_packXyn (ho : op < 16) (hx : x < 16) (hy : y < 16) (hn : n < 16) :
    yBits (packXyn op x y n) = BitVec.ofNat 4 y := by
  apply BitVec.eq_of_toNat_eq
  rw [yBits_toNat, packXyn_toNat _ _ _ _ ho hx hy hn, BitVec.toNat_ofNat]
  omega

theorem nBits_packXyn (ho : op < 16) (hx : x < 16) (hy : y < 16) (hn : n < 16) :
    nBits (packXyn op x y n) = BitVec.ofNat 4 n := by
  apply BitVec.eq_of_toNat_eq
  rw [nBits_toNat, packXyn_toNat _ _ _ _ ho hx hy hn, BitVec.toNat_ofNat]
  omega

end

/-- Settles O6: `encode_of_decode`, from the dispatcher's selection and the packing of a word's own fields. -/
theorem encodeOfDecode : Obligations.EncodeOfDecode := fun _ _ h => encode_of_decode h

end Sys2Proof
end

section
/-! PROOFS. The dispatcher by rows: a word carries an instruction's selectors (`Selects`) exactly when the row's mask and match select it,
and it then decodes to that row's instruction with the word's own fields (`refill`). From this the round trip, the opcode table and
`STRICT_DECODE` (R74, R75, R76, R79). -/

namespace Sys2Proof.Machine

/-- The word carries the selectors of the instruction's row: its `op` and, where the row has one, its low nibble or low byte (R74, R75). -/
def Selects (i : Instr) (w : Word) : Prop :=
  opField w = rowOp i ∧ (∀ k, rowNibble i = some k → nBits w = k) ∧ (∀ k, rowByte i = some k → kkField w = k)

/-- The instruction of the same row with every field taken from the word (R71, R76). -/
def refill (w : Word) : Instr → Instr
  | .cls _ => .cls (xBits w)
  | .ret _ => .ret (xBits w)
  | .jp _ => .jp (nnnField w)
  | .call _ => .call (nnnField w)
  | .seVxKk _ _ => .seVxKk (xReg w) (kkField w)
  | .sneVxKk _ _ => .sneVxKk (xReg w) (kkField w)
  | .seVxVy _ _ _ => .seVxVy (xReg w) (yReg w) (nBits w)
  | .ldVxKk _ _ => .ldVxKk (xReg w) (kkField w)
  | .addVxKk _ _ => .addVxKk (xReg w) (kkField w)
  | .ldVxVy _ _ => .ldVxVy (xReg w) (yReg w)
  | .or _ _ => .or (xReg w) (yReg w)
  | .and _ _ => .and (xReg w) (yReg w)
  | .xor _ _ => .xor (xReg w) (yReg w)
  | .addVxVy _ _ => .addVxVy (xReg w) (yReg w)
  | .sub _ _ => .sub (xReg w) (yReg w)
  | .shr _ _ => .shr (xReg w) (yBits w)
  | .subn _ _ => .subn (xReg w) (yReg w)
  | .shl _ _ => .shl (xReg w) (yBits w)
  | .sneVxVy _ _ _ => .sneVxVy (xReg w) (yReg w) (nBits w)
  | .ldI _ => .ldI (nnnField w)
  | .jpV0 _ => .jpV0 (nnnField w)
  | .rnd _ _ => .rnd (xReg w) (kkField w)
  | .drw _ _ _ => .drw (xReg w) (yReg w) (nHeight w)
  | .skp _ => .skp (xReg w)
  | .sknp _ => .sknp (xReg w)
  | .ldVxDt _ => .ldVxDt (xReg w)
  | .ldVxK _ => .ldVxK (xReg w)
  | .ldDtVx _ => .ldDtVx (xReg w)
  | .ldStVx _ => .ldStVx (xReg w)
  | .addIVx _ => .addIVx (xReg w)
  | .ldFVx _ => .ldFVx (xReg w)
  | .ldBVx _ => .ldBVx (xReg w)
  | .ldMemVx _ => .ldMemVx (xReg w)
  | .ldVxMem _ => .ldVxMem (xReg w)

theorem mnemonic_refill (w : Word) (i : Instr) : mnemonic (refill w i) = mnemonic i := by cases i <;> rfl

/-! ### The dispatcher selects by row -/

/-- A word with an instruction's selectors decodes to that row's instruction, filled from the word. -/
theorem Selects.select_eq {i : Instr} {w : Word} (h : Selects i w) : select w = some (refill w i) := by
  obtain ⟨ho, hn, hk⟩ := h
  cases i with
  | cls | ret => rw [select, ho, rowOp, decode0, hk _ rfl]; rfl
  | skp | sknp => rw [select, ho, rowOp, decodeE, hk _ rfl]; rfl
  | ldVxDt | ldVxK | ldDtVx | ldStVx | addIVx | ldFVx | ldBVx | ldMemVx | ldVxMem =>
    rw [select, ho, rowOp, decodeF, hk _ rfl]; rfl
  | ldVxVy | or | and | xor | addVxVy | sub | shr | subn | shl => rw [select, ho, rowOp, decode8, hn _ rfl]; rfl
  | _ => rw [select, ho]; rfl

/-- A word selects exactly the instruction whose selectors and whose fields it carries. -/
theorem select_eq_some_iff {w : Word} {i : Instr} : select w = some i ↔ Selects i w ∧ refill w i = i := by
  constructor
  · intro h
    have hs : Selects i w := select_fields h
    exact ⟨hs, Option.some.inj (hs.select_eq.symm.trans h)⟩
  · rintro ⟨hs, hi⟩
    rw [hs.select_eq, hi]

theorem decode_eq_ok_iff {w : Word} {i : Instr} : decode w = .ok i ↔ Selects i w ∧ refill w i = i :=
  ⟨fun h => select_eq_some_iff.mp (select_of_decode h), fun h => decode_of_select (select_eq_some_iff.mpr h)⟩

/-! ### The round trip -/

theorem selects_encode (i : Instr) : Selects i (encode i) := by
  cases i with
  | jp nnn | call nnn | ldI nnn | jpV0 nnn =>
    exact ⟨opField_packNnn nnn (by decide), nofun, nofun⟩
  | seVxKk x kk | sneVxKk x kk | ldVxKk x kk | addVxKk x kk | rnd x kk =>
    exact ⟨opField_packXkk (by decide) x.isLt kk.isLt, nofun, nofun⟩
  | seVxVy x y n | sneVxVy x y n | drw x y n =>
    exact ⟨opField_packXyn (by decide) x.isLt y.isLt n.isLt, nofun, nofun⟩
  | ldVxVy x y | or x y | and x y | xor x y | addVxVy x y | sub x y | shr x y | subn x y | shl x y =>
    exact ⟨opField_packXyn (by decide) x.isLt y.isLt (by decide),
      fun _ h => Option.some.inj h ▸ nBits_packXyn (by decide) x.isLt y.isLt (by decide), nofun⟩
  | cls x | ret x | skp x | sknp x | ldVxDt x | ldVxK x | ldDtVx x | ldStVx x | addIVx x | ldFVx x | ldBVx x | ldMemVx x
  | ldVxMem x =>
    exact ⟨opField_packXkk (by decide) x.isLt (by decide), nofun,
      fun _ h => Option.some.inj h ▸ kkField_packXkk (by decide) x.isLt (by decide)⟩

theorem refill_encode (i : Instr) : refill (encode i) i = i := by
  cases i with
  | jp nnn | call nnn | ldI nnn | jpV0 nnn => simp (disch := omega) only [encode, refill, nnnField_packNnn]
  | seVxKk x kk | sneVxKk x kk | ldVxKk x kk | addVxKk x kk | rnd x kk =>
    simp (disch := omega) [encode, refill, xReg, xBits_packXkk, kkField_packXkk]
  | seVxVy x y n | sneVxVy x y n | drw x y n =>
    simp (disch := omega) [encode, refill, xReg, yReg, nHeight, xBits_packXyn, yBits_packXyn, nBits_packXyn]
  | ldVxVy x y | or x y | and x y | xor x y | addVxVy x y | sub x y | shr x y | subn x y | shl x y =>
    simp (disch := omega) [encode, refill, xReg, yReg, xBits_packXyn, yBits_packXyn]
  | cls x | ret x | skp x | sknp x | ldVxDt x | ldVxK x | ldDtVx x | ldStVx x | addIVx x | ldFVx x | ldBVx x | ldMemVx x
  | ldVxMem x => simp (disch := omega) [encode, refill, xReg, xBits_packXkk]

/-- Settles O5: the encoding carries the instruction's selectors, and the fields read back from it are the instruction's. -/
theorem decodeOfEncode : Obligations.DecodeOfEncode :=
  fun i _ => decode_eq_ok_iff.mpr ⟨selects_encode i, refill_encode i⟩

/-! ### The opcode table -/

/-- The `match` and `mask` of an instruction's row, from its selectors (R76). -/
def rowPattern (i : Instr) : Word × Word :=
  match rowNibble i, rowByte i with
  | some k, _ => (rowOp i ++ 0#8 ++ k, 0xF00F)
  | none, some k => (rowOp i ++ 0#4 ++ k, 0xF0FF)
  | none, none => (rowOp i ++ 0#12, 0xF000)

theorem rowByte_eq_none_of_rowNibble {i : Instr} {k : Nibble} (h : rowNibble i = some k) : rowByte i = none := by
  cases i with
  | cls | ret | skp | sknp | ldVxDt | ldVxK | ldDtVx | ldStVx | addIVx | ldFVx | ldBVx | ldMemVx | ldVxMem => cases h
  | _ => rfl

/-- Carrying a row's selectors is matching its `match` under its `mask`. -/
theorem selects_iff_matches {i : Instr} {w : Word} : Selects i w ↔ w &&& (rowPattern i).2 = (rowPattern i).1 := by
  rw [Selects, rowPattern]
  cases hn : rowNibble i with
  | some k => simp [rowByte_eq_none_of_rowNibble hn, mask_F00F]
  | none =>
    cases hk : rowByte i with
    | some k => simp [mask_F0FF]
    | none => simp [mask_F000]

/-- One instruction of each row, in the table's order (R76). -/
def oneOfEachRow : List Instr :=
  [.cls 0, .ret 0, .jp 0, .call 0, .seVxKk 0 0, .sneVxKk 0 0, .seVxVy 0 0 0, .ldVxKk 0 0, .addVxKk 0 0, .ldVxVy 0 0, .or 0 0,
    .and 0 0, .xor 0 0, .addVxVy 0 0, .sub 0 0, .shr 0 0, .subn 0 0, .shl 0 0, .sneVxVy 0 0 0, .ldI 0, .jpV0 0, .rnd 0 0,
    .drw 0 0 0, .skp 0, .sknp 0, .ldVxDt 0, .ldVxK 0, .ldDtVx 0, .ldStVx 0, .addIVx 0, .ldFVx 0, .ldBVx 0, .ldMemVx 0,
    .ldVxMem 0]

/-- The opcode table is the identifier and the pattern of one instruction of each row. -/
theorem opcodeTable_eq : opcodeTable = oneOfEachRow.map fun i => (mnemonic i, rowPattern i) := by decide

/-- The table's rows stand in the order of the constructors (R76, R83). -/
theorem opcodeTable_getElem?_ctorIdx (i : Instr) : opcodeTable[i.ctorIdx]? = some (mnemonic i, rowPattern i) := by
  rw [opcodeTable_eq]
  cases i <;> rfl

/-- Settles O7: both the dispatcher and the table ask for the selectors of a row, and every instruction has its row in the table. -/
theorem dispatchAgreesWithOpcodeTable : Obligations.DispatchAgreesWithOpcodeTable := by
  intro w m
  constructor
  · rintro ⟨i, hi, rfl⟩
    exact ⟨_, List.mem_of_getElem? (opcodeTable_getElem?_ctorIdx i), rfl, selects_iff_matches.mp (decode_eq_ok_iff.mp hi).1⟩
  · rintro ⟨row, hrow, rfl, hw⟩
    rw [opcodeTable_eq] at hrow
    obtain ⟨i, -, rfl⟩ := List.mem_map.mp hrow
    exact ⟨refill w i, decode_of_select (selects_iff_matches.mpr hw).select_eq, mnemonic_refill w i⟩

/-! ### `STRICT_DECODE` -/

/-- A word decodes to what it selects, when that is well formed under the setting. -/
theorem decodeWith_eq_ok_iff {strict : Bool} {w : Word} {i : Instr} :
    decodeWith strict w = .ok i ↔ select w = some i ∧ i.wellFormedWith strict = true := by
  cases hs : select w with
  | none => simp [decodeWith, hs]
  | some j =>
    rw [decodeWith, hs, Option.some.injEq]
    dsimp only
    split
    case isTrue hj => exact ⟨fun h => by cases h; exact ⟨rfl, hj⟩, fun ⟨h, _⟩ => congrArg Except.ok h⟩
    case isFalse hj => exact ⟨nofun, fun ⟨h, hi⟩ => absurd (h ▸ hi) hj⟩

/-- The fields that `STRICT_DECODE` examines, read from the word, row by row: `x` under `op` 0x0, `n` under `op` 0x5 and 0x9 (R79). -/
theorem Selects.strictlyFormed_refill_iff {i : Instr} {w : Word} (h : Selects i w) :
    (refill w i).strictlyFormed = true ↔
      (opField w = 0x0 → xBits w = 0) ∧ (opField w = 0x5 → nBits w = 0) ∧ (opField w = 0x9 → nBits w = 0) := by
  obtain ⟨ho, -, -⟩ := h
  cases i <;> simp [ho, refill, Instr.strictlyFormed, rowOp]

/-- Settles O9: a strict decoding is a decoding to a strictly formed instruction, whose fields are the word's. -/
theorem strictDecodeRejectsNonzeroFields : Obligations.StrictDecodeRejectsNonzeroFields := by
  intro w i
  calc decodeWith true w = .ok i
    _ ↔ select w = some i ∧ i.strictlyFormed = true := decodeWith_eq_ok_iff
    _ ↔ decode w = .ok i ∧ i.strictlyFormed = true := and_congr_left' ⟨decode_of_select, select_of_decode⟩
    _ ↔ _ := and_congr_right fun hd => by
      obtain ⟨hs, hi⟩ := decode_eq_ok_iff.mp hd
      rw [← hs.strictlyFormed_refill_iff, hi]

end Sys2Proof.Machine
end

section
/-! PROOFS. Fetch, dispatch and the outcome of a step (R100, R101, R105): where each way of a step leads and what is reported of it. -/

namespace Sys2Proof.Machine

section
variable {s t : State}

/-! ### The fetch -/

/-- The fetch succeeds exactly up to the last address with another after it (R101). -/
theorem State.fetch_succeeds_iff (s : State) : s.pc.toNat ≤ 0xFFE ↔ ∃ w, s.fetch = .ok w := by
  have hmem : memSize = 4096 := rfl
  simp only [State.fetch_eq_ok, exists_and_left, exists_eq, and_true]
  omega

theorem State.fetch_of_le (h : s.pc.toNat ≤ 0xFFE) :
    s.fetch = .ok (wordOfBytes (s.mem.read s.pc.toNat) (s.mem.read (s.pc.toNat + 1))) :=
  (s.fetch_eq_ok _).mpr ⟨Nat.add_le_add_right h 2, rfl⟩

theorem State.fetch_of_gt (h : 0xFFE < s.pc.toNat) : s.fetch = .error (max s.pc.toNat memSize) :=
  (s.fetch_eq_error _).mpr ⟨Nat.add_lt_add_right h 2, rfl⟩

/-! ### Where a step of a running core leads -/

theorem step_of_fetch_error {a : Nat} (hf : s.fault = none) (ha : s.fetch = .error a) :
    step s = .next (s.faulted .addressFault 0 a) := by
  simp only [step, hf, ha, raiseFault]

theorem step_of_decode_error {w : Word} {e : DecodeError} (hf : s.fault = none) (hw : s.fetch = .ok w)
    (he : decode w = .error e) : step s = .next (s.faulted .invalidOpcode w 0) := by
  simp only [step, hf, hw, he, raiseFault]

/-- A running core always takes a step: to a fatal condition of the fetch or of the decoder, or to the instruction's answer (R106). -/
theorem step_answers (hf : s.fault = none) : ∃ t, step s = .next t := by
  cases hw : s.fetch with
  | error a => exact ⟨_, step_of_fetch_error hf hw⟩
  | ok w =>
    cases hd : decode w with
    | error e => exact ⟨_, step_of_decode_error hf hw hd⟩
    | ok i =>
      obtain ⟨t, ht, -⟩ := exec_answers i s
      exact ⟨t, (step_of_decode hf hw hd).trans ht⟩

/-- A step that records a fatal condition has changed nothing else (R236). -/
theorem eq_faulted_of_step {r : FaultRecord} (h : step s = .next t) (hr : t.fault = some r) : t = { s with fault := some r } := by
  obtain ⟨hf, ⟨a, -, rfl⟩ | ⟨w, -, -, rfl⟩ | ⟨w, i, -, -, hexec⟩⟩ := step_cases h
  · cases hr; rfl
  · cases hr; rfl
  · rcases (exec_effect hexec).fault_eq with heq | ⟨code, info, -, rfl⟩
    · rw [heq, hf] at hr; cases hr
    · cases hr; rfl

/-- A step that records no fatal condition has run the instruction it fetched. -/
theorem exec_of_step (h : step s = .next t) (ht : t.fault = none) :
    ∃ w i, s.fetch = .ok w ∧ decode w = .ok i ∧ exec i s = .next t := by
  obtain ⟨-, ⟨a, -, rfl⟩ | ⟨w, -, -, rfl⟩ | hrun⟩ := step_cases h
  · cases ht
  · cases ht
  · exact hrun

/-! ### The outcome reported (R105) -/

/-- A core waits at `LD Vx, K` with no key pressed, and nowhere else (R213). -/
theorem State.waiting_iff (s : State) :
    s.waiting = true ↔ ∃ w x, s.fetch = .ok w ∧ decode w = .ok (.ldVxK x) ∧ s.lowestKey = none := by
  constructor
  · intro h
    unfold State.waiting at h
    split at h
    · cases h
    · next w hw =>
      split at h
      · next x hd => exact ⟨w, x, hw, hd, Option.isNone_iff_eq_none.mp h⟩
      · cases h
  · rintro ⟨w, x, hw, hd, hk⟩
    simp only [State.waiting, hw, hd, hk, Option.isNone_none]

theorem report_of_fault {r : FaultRecord} (h : step s = .next t) (hr : t.fault = some r) : report s = .fault r.code := by
  simp only [report, h, hr]

theorem report_of_noFault (h : step s = .next t) (ht : t.fault = none) :
    report s = if s.waiting then .waitingForKey else .retired := by
  simp only [report, h, ht]

/-- A step of a waiting core leaves every element of the state as it is (R213). -/
theorem eq_of_step_of_waiting (hf : s.fault = none) (hw : s.waiting = true) (h : step s = .next t) : t = s := by
  obtain ⟨w, x, hfetch, hd, hk⟩ := s.waiting_iff.mp hw
  rw [step_of_decode hf hfetch hd, exec_ldVxK_of_noneHeld x hk] at h
  cases h
  rfl

/-- The host's `Step` is the step of the state with the latch it presents, and answers its outcome (R36, R100). -/
theorem perform_step_of_next {keys : Keys} (h : step (s.writeKeys keys) = .next t) :
    perform (.step keys) s = .next (t, .stepped (report (s.writeKeys keys))) := by
  simp only [perform, State.hostStep, h]

end

/-- Settles O1: the two bytes in range are the word fetched, and a running core whose word decodes runs that instruction. -/
theorem stepRunsTheDecodedInstruction : Obligations.StepRunsTheDecodedInstruction :=
  fun _ _ hf hp hd => step_of_decode hf (State.fetch_of_le (by omega)) hd

/-- Settles O10: the bound and the word from the fetch's two outcomes, and the lowest bad address is `max(a_pc, MEM_SIZE)`. -/
theorem fetchReadsTwoBytesOrFaults : Obligations.FetchReadsTwoBytesOrFaults := by
  refine ⟨State.fetch_succeeds_iff, fun s => State.fetch_of_le, fun s hf hp => ?_⟩
  have hlow : max s.pc.toNat memSize = if 4096 ≤ s.pc.toNat then s.pc.toNat else 4096 := by rw [max_comm, Nat.max_def]
  rw [step_of_fetch_error hf (State.fetch_of_gt hp), hlow]

/-- Settles O43: by whether the step recorded a fatal condition and, if not, whether the core waits; the host's `Step` is a step. -/
theorem stepOutcomes : Obligations.StepOutcomes := by
  constructor
  · intro s hf
    obtain ⟨t, h⟩ := step_answers hf
    refine ⟨t, h, ?_⟩
    cases ht : t.fault with
    | some r => exact .inr (.inr ⟨r, report_of_fault h ht, eq_faulted_of_step h ht⟩)
    | none =>
      have hreport := report_of_noFault h ht
      cases hw : s.waiting with
      | false =>
        rw [hw] at hreport
        exact .inl ⟨hreport, rfl, rfl, exec_of_step h ht⟩
      | true =>
        rw [hw] at hreport
        obtain ⟨w, x, hfetch, hd, hk⟩ := s.waiting_iff.mp hw
        exact .inr (.inl ⟨hreport, eq_of_step_of_waiting hf hw h, s.lowestKey_eq_none.mp hk, w, x, hfetch, hd⟩)
  · intro s keys hf
    obtain ⟨t, h⟩ := step_answers (s := s.writeKeys keys) hf
    exact ⟨t, h, perform_step_of_next h⟩

end Sys2Proof.Machine
end

section
/-! PROOFS. Control transfer (R120 to R128): the encodings of its rows, read off the dispatcher's selectors, and each instruction's next
state; for `RET` also what the matching call left for it. -/

namespace Sys2Proof.Machine

/-- The row of any instruction: the words that match it decode to the instruction filled from the word, and no others do (R76). -/
theorem encodedAs_rowPattern (i : Instr) : EncodedAs (rowPattern i).1 (rowPattern i).2 fun w => refill w i := by
  intro w
  rw [Ne, ← selects_iff_matches]
  refine ⟨fun h => decode_of_select h.select_eq, fun h v hd => h ?_⟩
  have hs := (decode_eq_ok_iff.mp hd).1
  have hrow : Selects (refill v i) w ↔ Selects i w := by cases i <;> exact Iff.rfl
  exact hrow.mp hs

/-! ### Jumps and their targets as numbers -/

theorem addr16_toNat (nnn : Addr12) : (addr16 nnn).toNat = nnn.toNat :=
  BitVec.toNat_setWidth_of_le (by decide)

/-- The sum of an indexed jump never reaches 65536, so it is not reduced (R128). -/
theorem addr16_add_byte16_toNat (nnn : Addr12) (b : Byte) : (addr16 nnn + byte16 b).toNat = nnn.toNat + b.toNat := by
  have hb : (byte16 b).toNat = b.toNat := BitVec.toNat_setWidth_of_le (by decide)
  have := nnn.isLt
  have := b.isLt
  rw [BitVec.toNat_add, addr16_toNat, hb, Nat.mod_eq_of_lt (by omega)]

/-- A jump writes `PC` alone (R121). -/
theorem exec_jp (nnn : Addr12) (s : State) : exec (.jp nnn) s = .next { s with pc := addr16 nnn } := rfl

section
variable {s t : State}

/-! ### The call stack -/

/-- A return with `n + 1` entries in use: `SP` becomes `n` and `PC` the entry there (R120). -/
theorem exec_ret_of_sp_eq_succ (x : Nibble) {n : Nat} (h : s.sp.val = n + 1) :
    exec (.ret x) s = .next { s with sp := ⟨n, by omega⟩, pc := s.stack[n]'(by omega) } := by
  simp [exec_ret_of_used x (show s.sp.val ≠ 0 by omega), h]

/-- A return from the stack and the depth a call left goes on after the call, at the depth before it (R120, R122). -/
theorem exec_ret_of_stack_of_call (nnn : Addr12) (x : Nibble) {u : State} (hc : s.sp.val < 16) (h : exec (.call nnn) s = .next t)
    (hsp : u.sp = t.sp) (hst : u.stack = t.stack) : exec (.ret x) u = .next { u with sp := s.sp, pc := s.pc + 2 } := by
  rw [exec_call_of_free nnn hc] at h
  cases h
  have hpushed : u.stack[s.sp.val] = s.pc + 2 := by simp [hst]
  rw [exec_ret_of_sp_eq_succ x (congrArg Fin.val hsp), hpushed]

/-- No instruction alters an entry in use: a call writes the entry at `SP`, above them all (R26, R122). -/
theorem Effect.stack_getElem_eq {i : Instr} (e : Effect s i t) (k : Fin 16) (hk : k.val < s.sp.val) : t.stack[k] = s.stack[k] := by
  cases e with
  | call nnn h => exact Vector.getElem_set_ne h _ (Nat.ne_of_gt hk)
  | _ => simp

end

/-- Settles O11: the two outcomes of a return, the return after the matching call, and the frame of the entries in use. -/
theorem retPopsTheReturnAddress : Obligations.RetPopsTheReturnAddress := by
  refine ⟨encodedAs_rowPattern (.ret 0), fun x s h => ?_, fun x s => exec_ret_of_empty x, fun nnn x s u h => ?_,
    fun i s t k h hk => (exec_effect h).stack_getElem_eq k hk⟩
  · obtain ⟨n, hn⟩ := Nat.exists_eq_succ_of_ne_zero fun h0 : s.sp.val = 0 => h (Fin.ext h0)
    exact ⟨_, exec_ret_of_sp_eq_succ x hn, rfl, hn.symm, Vector.getElem?_eq_getElem _⟩
  · exact ⟨_, exec_call_of_free nnn h, fun hsp hst =>
      ⟨_, exec_ret_of_stack_of_call nnn x h (exec_call_of_free nnn h) hsp hst, rfl, rfl⟩⟩

/-- Settles O12: the target is `nnn` as a number; at the instruction's own address the state is the same, and from 0xFFF the fetch faults
(R101). -/
theorem jpSetsThePc : Obligations.JpSetsThePc := by
  refine ⟨encodedAs_rowPattern (.jp 0), fun nnn s => ⟨_, exec_jp nnn s, rfl, addr16_toNat nnn⟩, fun nnn s h => ?_, fun s hf => ?_⟩
  · have hpc : addr16 nnn = s.pc := BitVec.eq_of_toNat_eq ((addr16_toNat nnn).trans h.symm)
    rw [exec_jp, hpc]
  · exact ⟨_, exec_jp 0xFFF s, rfl, step_of_fetch_error hf (State.fetch_of_gt (by decide : 0xFFE < (0xFFF : Word).toNat))⟩

/-- Settles O13: the two outcomes of a call; of the stack it writes the entry at the old `SP` alone. -/
theorem callPushesTheReturnAddress : Obligations.CallPushesTheReturnAddress := by
  refine ⟨encodedAs_rowPattern (.call 0), fun nnn s h => ⟨_, exec_call_of_free nnn h, rfl, rfl, addr16_toNat nnn, fun k => ?_⟩,
    fun nnn s => exec_call_of_full nnn⟩
  simp only [Fin.getElem_fin, Vector.getElem_set, eq_comm (a := s.sp.val)]

/-- Settles O15: each of the four is a skip on its own condition (R127). -/
theorem registerSkips : Obligations.RegisterSkips := by
  refine ⟨encodedAs_rowPattern (.seVxKk 0 0), encodedAs_rowPattern (.sneVxKk 0 0), encodedAs_rowPattern (.seVxVy 0 0 0),
    encodedAs_rowPattern (.sneVxVy 0 0 0), fun x kk s => ⟨?_, ?_⟩, fun x y n s => ⟨?_, ?_⟩⟩
  · simp [exec, execSeVxKk, State.skipIf_eq]
  · simp [exec, execSneVxKk, State.skipIf_eq]
  · simp [exec, execSeVxVy, State.skipIf_eq]
  · simp [exec, execSneVxVy, State.skipIf_eq]

/-- Settles O16: the jump's target is the unreduced sum. -/
theorem jpV0AddsV0 : Obligations.JpV0AddsV0 :=
  ⟨encodedAs_rowPattern (.jpV0 0), fun nnn s => ⟨_, rfl, rfl, addr16_add_byte16_toNat nnn (s.reg 0)⟩⟩

end Sys2Proof.Machine
end

section
/-! PROOFS. The register loads and the ALU (R140 to R151). None of them tests anything first, so each answers one state: the destination
written, or the destination and then VF (R153). What is left to say is the registers of that state, and the result and the flag as
numbers. -/

namespace Sys2Proof.Machine

/-! ### Registers after a write of the destination, and after a write of the destination and VF -/

section
variable (s : State) (b : Byte) (c : Bool) {x k : RegIdx}

theorem State.reg_setReg_self (x : RegIdx) : (s.setReg x b).reg x = b :=
  (s.reg_setReg x x b).trans (if_pos rfl)

theorem State.reg_setReg_of_ne (hk : k ≠ x) : (s.setReg x b).reg k = s.reg k :=
  (s.reg_setReg x k b).trans (if_neg hk)

/-- With `x = F`, too, VF ends as the flag (R153). -/
theorem State.reg_setResultAndFlag_VF (x : RegIdx) : (s.setResultAndFlag x b c).reg VF = flagByte c :=
  (s.setReg x b).reg_setReg_self (flagByte c) VF

theorem State.reg_setResultAndFlag_self (hx : x ≠ VF) : (s.setResultAndFlag x b c).reg x = b :=
  ((s.setReg x b).reg_setReg_of_ne (flagByte c) hx).trans (s.reg_setReg_self b x)

theorem State.reg_setResultAndFlag_of_ne (hk : k ≠ x) (hf : k ≠ VF) : (s.setResultAndFlag x b c).reg k = s.reg k :=
  ((s.setReg x b).reg_setReg_of_ne (flagByte c) hf).trans (s.reg_setReg_of_ne b hk)

end

/-! ### The flags and the results as numbers -/

section
variable (a b : Byte)

theorem flagByte_carry : flagByte (carry a b) = if 255 < a.toNat + b.toNat then 1 else 0 := by
  simp only [flagByte, carry, decide_eq_true_eq]

theorem flagByte_strictlyAbove : flagByte (strictlyAbove a b) = if b.toNat < a.toNat then 1 else 0 := by
  simp only [flagByte, strictlyAbove, decide_eq_true_eq]

/-- A bit written as a flag is that binary digit of the byte. -/
theorem flagByte_getLsbD_toNat (i : Nat) : (flagByte (a.getLsbD i)).toNat = a.toNat / 2 ^ i % 2 := by
  have hc : ∀ c, (flagByte c).toNat = c.toNat := by decide
  rw [hc, BitVec.getLsbD, Nat.toNat_testBit]

theorem flagByte_lowBit_toNat : (flagByte (lowBit a)).toNat = a.toNat % 2 := by
  rw [lowBit, flagByte_getLsbD_toNat, Nat.pow_zero, Nat.div_one]

theorem flagByte_highBit_toNat : (flagByte (highBit a)).toNat = a.toNat / 128 := by
  have := a.isLt
  rw [highBit, flagByte_getLsbD_toNat]
  omega

/-- A difference that wraps is 256 more than the difference of the numbers (R147, R149). -/
theorem toNat_sub_byte : (a - b).toNat = (a.toNat + 256 - b.toNat) % 256 := by
  have := b.isLt
  rw [BitVec.toNat_sub]
  omega

end

/-! ### The instructions that write VF last -/

/-- Settles O21: VF is the carry whatever `x` is; the destination and the frame are those of a result and a flag. -/
theorem addVxVyAddsAndCarries : Obligations.AddVxVyAddsAndCarries := by
  refine ⟨encodedAs_rowPattern (.addVxVy 0 0), fun x y s => ⟨_, rfl, rfl, ?flag, fun hx => ?result, fun k => ?frame⟩⟩
  case flag => rw [State.reg_setResultAndFlag_VF, flagByte_carry]
  case result => rw [State.reg_setResultAndFlag_self _ _ _ hx, BitVec.toNat_add]
  case frame => exact s.advance.reg_setResultAndFlag_of_ne _ _

/-- Settles O22: SUBN is SUB with the operands exchanged, and both have the strict comparison for their flag. -/
theorem subAndSubnWithStrictFlag : Obligations.SubAndSubnWithStrictFlag := by
  refine ⟨encodedAs_rowPattern (.sub 0 0), encodedAs_rowPattern (.subn 0 0), fun x y s =>
    ⟨⟨_, rfl, rfl, ?flag, fun hx => ?result, fun k => ?frame⟩, ⟨_, rfl, rfl, ?flag', fun hx => ?result', fun k => ?frame'⟩⟩⟩
  case flag | flag' => rw [State.reg_setResultAndFlag_VF, flagByte_strictlyAbove]
  case result | result' => rw [State.reg_setResultAndFlag_self _ _ _ hx, toNat_sub_byte]
  case frame | frame' => exact s.advance.reg_setResultAndFlag_of_ne _ _

/-- Settles O23: a shift by one is halving or doubling modulo 256, and the flag is the lowest or the highest binary digit. -/
theorem shiftsMoveOneBitIntoVf : Obligations.ShiftsMoveOneBitIntoVf := by
  refine ⟨encodedAs_rowPattern (.shr 0 0), encodedAs_rowPattern (.shl 0 0), fun x y s =>
    ⟨⟨_, rfl, rfl, ?flag, fun hx => ?result, fun k => ?frame⟩, ⟨_, rfl, rfl, ?flag', fun hx => ?result', fun k => ?frame'⟩⟩⟩
  case flag => rw [State.reg_setResultAndFlag_VF, flagByte_lowBit_toNat]
  case flag' => rw [State.reg_setResultAndFlag_VF, flagByte_highBit_toNat]
  case result => rw [State.reg_setResultAndFlag_self _ _ _ hx, BitVec.toNat_ushiftRight, Nat.shiftRight_one]
  case result' => rw [State.reg_setResultAndFlag_self _ _ _ hx, BitVec.toNat_shiftLeft, Nat.shiftLeft_eq, Nat.pow_one]
  case frame | frame' => exact s.advance.reg_setResultAndFlag_of_ne _ _

/-! ### The instructions that write the destination alone -/

/-- Settles O17: the write of one register. -/
theorem ldVxKkLoadsTheImmediate : Obligations.LdVxKkLoadsTheImmediate :=
  ⟨encodedAs_rowPattern (.ldVxKk 0 0), fun x kk s => ⟨_, rfl, rfl, fun k => s.advance.reg_setReg x k kk⟩⟩

/-- Settles O18: the write of one register, with a sum that wraps. -/
theorem addVxKkAddsWithoutFlag : Obligations.AddVxKkAddsWithoutFlag := by
  refine ⟨encodedAs_rowPattern (.addVxKk 0 0), fun x kk s => ⟨_, rfl, rfl, ?_, fun k => s.advance.reg_setReg_of_ne _⟩⟩
  rw [State.reg_setReg_self, BitVec.toNat_add]

/-- Settles O19: the write of one register. -/
theorem ldVxVyCopiesARegister : Obligations.LdVxVyCopiesARegister :=
  ⟨encodedAs_rowPattern (.ldVxVy 0 0), fun x y s => ⟨_, rfl, rfl, fun k => s.advance.reg_setReg x k (s.reg y)⟩⟩

/-- Settles O20: the write of one register for each of the three, with each bit of the result the operation of the two bits. -/
theorem bitwiseOpsWithoutFlag : Obligations.BitwiseOpsWithoutFlag := by
  refine ⟨encodedAs_rowPattern (.or 0 0), encodedAs_rowPattern (.and 0 0), encodedAs_rowPattern (.xor 0 0), fun x y s =>
    ⟨⟨_, rfl, rfl, fun i _ => ?or, fun k => ?frame⟩, ⟨_, rfl, rfl, fun i _ => ?and, fun k => ?frame'⟩,
      ⟨_, rfl, rfl, fun i _ => ?xor, fun k => ?frame''⟩⟩⟩
  case or => rw [State.reg_setReg_self, BitVec.getLsbD_or]
  case and => rw [State.reg_setReg_self, BitVec.getLsbD_and]
  case xor => rw [State.reg_setReg_self, BitVec.getLsbD_xor]
  case frame | frame' | frame'' => exact s.advance.reg_setReg_of_ne _

/-- Settles O24: RND writes the masked byte and counts the draw; a mask leaves no bit outside itself. -/
theorem rndMasksAFreeByte : Obligations.RndMasksAFreeByte := by
  refine ⟨encodedAs_rowPattern (.rnd 0 0), fun x kk s => rfl,
    fun rnd x kk s => ⟨_, rfl, rfl, fun i _ => ?bits, fun k => s.advance.reg_setReg_of_ne _⟩, fun x kk s => ⟨_, rfl, ?mask⟩⟩
  case bits => rw [State.reg_nextDraw, State.reg_setReg_self, BitVec.getLsbD_and]
  case mask =>
    rw [State.reg_nextDraw, State.reg_setReg_self, BitVec.and_assoc, BitVec.and_not_self]
    exact BitVec.and_zero

end Sys2Proof.Machine
end

section
/-! PROOFS. The index register and the memory instructions (R170 to R177). The three that write `I` test nothing; the three that access
memory have two outcomes, by whether the last address of the range is inside memory (R174). What a store leaves in memory is read off
`Memory.read_writeList`, for addresses in the range and outside it. -/

namespace Sys2Proof.Machine

/-! ### The last address inside memory, or beyond it -/

theorem firstBad_succ_of_lt {first n : Nat} (h : first + n < memSize) : firstBad first (n + 1) = none :=
  (firstBad_eq_none _ _).mpr (.inr h)

/-- Any of the four memory instructions, the last of its `n + 1` addresses beyond memory (R174). -/
theorem exec_of_lastAddr_ge {i : Instr} {s : State} {n : Nat} (hl : dataLength i = some (n + 1))
    (h : memSize ≤ s.index.toNat + n) :
    exec i s = .next (s.faulted .addressFault (encode i) (max s.index.toNat memSize)) :=
  exec_of_outOfRange hl ((firstBad_eq_some _ _ _).mpr ⟨Nat.succ_ne_zero n, Nat.lt_succ_of_le h, rfl⟩)

/-! ### Memory after a store of a list of bytes (R54, R60) -/

section
variable (m : Memory) (a : Nat) {bs : List Byte}

theorem Memory.read_writeList_add {i : Nat} (h : i < bs.length) : (m.writeList a bs).read (a + i) = bs[i] := by
  simp [Memory.read_writeList, h]

theorem Memory.read_writeList_of_outside {k : Nat} (h : k < a ∨ a + bs.length ≤ k) : (m.writeList a bs).read k = m.read k := by
  rw [Memory.read_writeList, dif_neg (by omega)]

end

/-! ### The register range in memory (R175, R176) -/

/-- After a block store, the cell `k` beyond the base holds V[k] (R175). -/
theorem Memory.read_writeList_regsUpTo (m : Memory) (a : Nat) {s : State} {x k : RegIdx} (hk : k.val ≤ x.val) :
    (m.writeList a ((regsUpTo x).map s.reg)).read (a + k.val) = s.reg k := by
  have hlen : k.val < (regsUpTo x).length := by rw [length_regsUpTo]; omega
  have hreg : (regsUpTo x)[k.val] = k := Fin.ext (getElem_regsUpTo x k hlen)
  rw [Memory.read_writeList_add m a (by rwa [List.length_map]), List.getElem_map, hreg]

/-- After a block load, a register of the range holds its cell and every other one is as before (R176). -/
theorem State.reg_loadRegs_regsUpTo (s : State) (first : Nat) (x k : RegIdx) :
    (s.loadRegs first (regsUpTo x)).reg k = if k.val ≤ x.val then s.mem.read (first + k.val) else s.reg k := by
  simp only [State.reg_loadRegs, mem_regsUpTo]

/-! ### The values written, as numbers -/

section
variable (b : Byte)

theorem byte16_toNat : (byte16 b).toNat = b.toNat := BitVec.toNat_setWidth_of_le (by decide)

/-- The address of a glyph never wraps: it is at most 5 * 255 (R172). -/
theorem glyphAddr_toNat : (glyphAddr b).toNat = b.toNat * 5 := by
  have := b.isLt
  have hfit : Config.machine.fontBase + b.toNat * Config.machine.glyphBytes < 2 ^ 16 := by simp only; omega
  rw [glyphAddr, BitVec.toNat_ofNat, Nat.mod_eq_of_lt hfit, Nat.zero_add]

theorem flagByte_beyondMemory (a : Word) :
    flagByte (beyondMemory a b) = if memSize ≤ a.toNat + b.toNat then 1 else 0 := by
  simp only [flagByte, beyondMemory, decide_eq_true_eq]

@[simp] theorem length_bcdDigits : (bcdDigits b).length = 3 := rfl

/-- Each decimal digit fits a byte, so none is reduced (R173). -/
theorem bcdDigits_toNat : ((bcdDigits b)[0]).toNat = b.toNat / 100 ∧
    ((bcdDigits b)[1]).toNat = b.toNat / 10 % 10 ∧ ((bcdDigits b)[2]).toNat = b.toNat % 10 := by
  have := b.isLt
  exact ⟨Nat.mod_eq_of_lt (by omega), Nat.mod_eq_of_lt (by omega), Nat.mod_eq_of_lt (by omega)⟩

end

/-! ### The instructions that access memory through `I` -/

/-- Settles O28: the two outcomes of storing the digits; the cells of the range hold the three digits in order. -/
theorem ldBVxStoresThreeDigits : Obligations.LdBVxStoresThreeDigits := by
  refine ⟨encodedAs_rowPattern (.ldBVx 0), fun x s h => ?_, fun x s => exec_of_lastAddr_ge rfl⟩
  have hcell (i : Nat) (hi : i < (bcdDigits (s.reg x)).length) := Memory.read_writeList_add s.mem s.index.toNat hi
  obtain ⟨hundreds, tens, ones⟩ := bcdDigits_toNat (s.reg x)
  exact ⟨_, exec_ldBVx_of_inRange x (firstBad_succ_of_lt h), rfl, (congrArg BitVec.toNat (hcell 0 _)).trans hundreds,
    (congrArg BitVec.toNat (hcell 1 _)).trans tens, (congrArg BitVec.toNat (hcell 2 _)).trans ones,
    fun a ha => Memory.read_writeList_of_outside _ _ ha⟩

/-- Settles O29: the two outcomes of a block store. -/
theorem ldMemVxStoresTheRange : Obligations.LdMemVxStoresTheRange := by
  refine ⟨encodedAs_rowPattern (.ldMemVx 0), fun x s h =>
    ⟨_, exec_ldMemVx_of_inRange (firstBad_succ_of_lt h), rfl, fun k hk => ?inside, fun a ha => ?outside⟩,
    fun x s => exec_of_lastAddr_ge rfl⟩
  case inside => exact Memory.read_writeList_regsUpTo _ _ hk
  case outside =>
    refine Memory.read_writeList_of_outside _ _ ?_
    rw [List.length_map, length_regsUpTo]
    omega

/-- Settles O30: the two outcomes of a block load; after the block store its cells hold V0 to Vx, so the load gives
them back (R177). -/
theorem ldVxMemLoadsTheRange : Obligations.LdVxMemLoadsTheRange := by
  refine ⟨encodedAs_rowPattern (.ldVxMem 0), fun x s h => ⟨_, exec_ldVxMem_of_inRange (firstBad_succ_of_lt h),
      (s.advance.loadRegs_spec _ _).2, s.advance.reg_loadRegs_regsUpTo _ x⟩,
    fun x s u h hx => ⟨_, exec_ldMemVx_of_inRange (firstBad_succ_of_lt h), fun hm =>
      ⟨_, exec_ldVxMem_of_inRange (firstBad_succ_of_lt (hx ▸ h)), fun k hk => ?restored⟩⟩,
    fun x s => exec_of_lastAddr_ge rfl⟩
  case restored =>
    rw [State.reg_loadRegs_regsUpTo, if_pos hk, State.advance_mem, hm, hx]
    exact Memory.read_writeList_regsUpTo _ _ hk

/-! ### The instructions that write `I` -/

/-- Settles O25: the index takes `nnn` zero-extended. -/
theorem ldISetsTheIndex : Obligations.LdISetsTheIndex :=
  ⟨encodedAs_rowPattern (.ldI 0), fun nnn _ => ⟨_, rfl, rfl, addr16_toNat nnn⟩⟩

/-- Settles O26: the byte is read before VF, the last write, so `x = F` needs no case of its own. -/
theorem addIVxAddsAndFlags : Obligations.AddIVxAddsAndFlags := by
  refine ⟨encodedAs_rowPattern (.addIVx 0), fun x _ => ⟨_, rfl, rfl, ?sum, ?flag, fun k => State.reg_setReg_of_ne _ _⟩⟩
  case sum => rw [State.setReg_index, State.setIndex_index, BitVec.toNat_add, byte16_toNat]
  case flag => exact (State.reg_setReg_self _ _ VF).trans (flagByte_beyondMemory _ _)

/-- Settles O27: the index takes the address of the glyph. -/
theorem ldFVxPointsAtTheGlyph : Obligations.LdFVxPointsAtTheGlyph :=
  ⟨encodedAs_rowPattern (.ldFVx 0), fun x s => ⟨_, rfl, rfl, glyphAddr_toNat (s.reg x)⟩⟩

end Sys2Proof.Machine
end

section
/-! PROOFS. The display (R191 to R197). A draw turns over the cells of a list without repetition, the sprite's; so it is read off
`Grid.cell_blit` and `Grid.hit_blit` once, and drawing twice follows from what one draw does. -/

namespace Sys2Proof.Machine

/-! ### A blit over distinct cells, cell by cell -/

section
variable (g : Grid) {ps : List Pixel} (h : ps.Nodup)
include h

theorem Grid.cell_blit_iff (q : Pixel) : (g.blit ps).1.cell q = true ↔ (g.cell q = true ↔ q ∉ ps) := by
  rw [g.cell_blit ps h]
  cases g.cell q <;> simp

theorem Grid.hit_blit_iff : (g.blit ps).2 = true ↔ ∃ p, p ∈ ps ∧ g.cell p = true := by
  rw [g.hit_blit ps h, List.any_eq_true]

end

/-! ### The sprite of a draw -/

/-- The cells a draw in range turns over: those under the set bits of its sprite, from the origin on (R192). -/
def State.spriteCells (s : State) (x y : RegIdx) (n : Height) : List Pixel :=
  spritePixels ((s.reg x).toNat % width) ((s.reg y).toNat % height) (s.mem.readList s.index.toNat n.val)

section
variable {s : State} {x y : RegIdx} {n : Height} {p : Pixel}

/-- A cell is the one at a wrapped row and a wrapped column exactly when its two coordinates are (R194). -/
theorem eq_wrapRow_wrapCol_iff (row col : Nat) :
    p = (wrapRow row, wrapCol col) ↔ p.1.val = row % 32 ∧ p.2.val = col % 64 := by
  rw [Prod.ext_iff, Fin.ext_iff, Fin.ext_iff]
  rfl

theorem State.mem_spriteCells : p ∈ s.spriteCells x y n ↔ s.spriteCovers x y n p := by
  simp only [State.spriteCells, mem_spritePixels, Memory.length_readList, Memory.getElem_readList, spriteBit,
    eq_wrapRow_wrapCol_iff, State.spriteCovers, exists_prop]

/-- No cell is turned over twice by one draw: a sprite has at most 15 rows (R195). -/
theorem State.nodup_spriteCells (s : State) (x y : RegIdx) (n : Height) : (s.spriteCells x y n).Nodup := by
  refine nodup_spritePixels _ _ _ ?_
  rw [Memory.length_readList]
  exact Nat.le_of_lt_succ n.isLt

/-- Where a sprite lies depends on `I`, what memory reads as and the two coordinates, and on nothing else. -/
theorem State.spriteCovers_congr {u : State} (hi : u.index = s.index) (hm : ∀ a, u.mem.read a = s.mem.read a)
    (hx : u.reg x = s.reg x) (hy : u.reg y = s.reg y) : u.spriteCovers x y n p ↔ s.spriteCovers x y n p := by
  simp only [State.spriteCovers, hi, hm, hx, hy]

end

/-! ### The operations of the host -/

/-- An image that is loaded fits the memory above `PROG_BASE`, finds the state `Reset` leaves and changes memory alone (R273, R274). -/
theorem loadImage_cases {s t : State} {img : List Byte} (h : s.loadImage img = .next t) :
    s = s.resetOp ∧ Config.machine.progBase + img.length ≤ memSize ∧
      t = { s with mem := s.mem.writeList Config.machine.progBase img } := by
  unfold State.loadImage at h
  split at h
  · next hreset =>
    split at h
    · cases h
    · next hfit =>
      cases h
      exact ⟨hreset, Nat.le_of_not_lt hfit, rfl⟩
  · cases h

theorem perform_loadImage_cases {s t : State} {img : List Byte} {a : Response} (h : perform (.loadImage img) s = .next (t, a)) :
    s.loadImage img = .next t ∧ a = .done := by
  simp only [perform] at h
  cases hl : s.loadImage img with
  | next u => rw [hl] at h; cases h; exact ⟨rfl, rfl⟩
  | fault f => rw [hl] at h; cases h
  | refused r => rw [hl] at h; cases h

/-! ### The statements -/

/-- Settles O33: every cell of the blank framebuffer is off. -/
theorem clsTurnsEveryCellOff : Obligations.ClsTurnsEveryCellOff :=
  ⟨encodedAs_rowPattern (.cls 0), fun _ _ => ⟨_, rfl, rfl, Grid.cell_blank⟩⟩

/-- Settles O34: the two outcomes of a draw; in range, a blit over the sprite's cells, none of which comes twice. -/
theorem drwTogglesTheSpritesCells : Obligations.DrwTogglesTheSpritesCells := by
  refine ⟨encodedAs_rowPattern (.drw 0 0 0), fun x y n s h => ?inRange, fun x y n s h0 h =>
    exec_of_outOfRange rfl ((firstBad_eq_some _ _ _).mpr ⟨h0, h, rfl⟩)⟩
  case inRange =>
    have hcell := s.fb.cell_blit_iff (s.nodup_spriteCells x y n)
    have hhit := s.fb.hit_blit_iff (s.nodup_spriteCells x y n)
    simp only [State.mem_spriteCells] at hcell hhit
    refine ⟨_, exec_drw_of_inRange x y ((firstBad_eq_none _ _).mpr h), rfl, hcell, fun hc => ?hit, fun hc => ?miss,
      fun k => State.reg_setReg_of_ne _ _⟩
    case hit => exact (State.reg_setReg_self _ _ VF).trans (congrArg flagByte (hhit.mpr hc))
    case miss => exact (State.reg_setReg_self _ _ VF).trans (congrArg flagByte (Bool.eq_false_iff.mpr (mt hhit.mp hc)))

/-- Settles O35: both draws turn over the same cells, so each cell is turned over twice or not at all; the flag is that of one draw. -/
theorem drawingTwiceRestoresTheDisplay : Obligations.DrawingTwiceRestoresTheDisplay := by
  intro x y n s u h hi hm hx hy
  obtain ⟨-, draw, -⟩ := drwTogglesTheSpritesCells
  have hcov (p : Pixel) : u.spriteCovers x y n p ↔ s.spriteCovers x y n p := State.spriteCovers_congr hi hm hx hy
  obtain ⟨t, hs, -, hfirst, -, -, -⟩ := draw x y n s h
  obtain ⟨r, hu, -, hsecond, hhit, hmiss, -⟩ := draw x y n u (hi ▸ h)
  simp only [hcov] at hsecond hhit hmiss
  refine ⟨t, hs, fun hfb => ⟨r, hu, Grid.ext_of_cell _ _ fun p => ?restored, fun hr => ?flag, hhit⟩⟩
  case restored =>
    rw [Bool.eq_iff_iff, hsecond, hfb, hfirst]
    tauto
  case flag =>
    by_contra hc
    rw [hmiss hc] at hr
    exact absurd hr (by decide)

/-- Settles O36: each operation but a step and `Reset` leaves the framebuffer as it is. -/
theorem hostReadsTheDisplay : Obligations.HostReadsTheDisplay := by
  refine ⟨fun _ _ => rfl, fun _ => rfl, fun _ => rfl, fun op s t a h => ?_⟩
  cases op with
  | reset => exact .inr (.inl rfl)
  | step keys => exact .inr (.inr ⟨keys, rfl⟩)
  | loadImage img =>
    obtain ⟨hload, -⟩ := perform_loadImage_cases h
    obtain ⟨-, -, rfl⟩ := loadImage_cases hload
    exact .inl rfl
  | tickDelay | tickSound | clearDirty | readFB | readDirty | readFault => cases h; exact .inl rfl

end Sys2Proof.Machine
end

section
/-! PROOFS. The timers and the input latch (R210 to R219). The key skips and the key-wait have one outcome for each answer of `keyOf` and
`State.lowestKey`; what a timer holds after ticks is a subtraction of numbers, which floors at 0 as a tick does. -/

namespace Sys2Proof.Machine

/-! ### The timers as numbers -/

/-- Counting a byte down with a floor of 0 is the subtraction of numbers (R218, R219). -/
theorem countdown_toNat (b : Byte) : (if b = 0 then 0 else b - 1).toNat = b.toNat - 1 := by
  split
  · next h => rw [h]; rfl
  · next h => bv_omega

section
variable (s : State)

theorem State.tickDelay_dt_toNat : s.tickDelay.dt.toNat = s.dt.toNat - 1 := countdown_toNat s.dt

theorem State.tickSound_st_toNat : s.tickSound.st.toNat = s.st.toNat - 1 := countdown_toNat s.st

/-- The host's ticks are never refused: as many operations are as many ticks (R274). -/
theorem performAll_replicate_tickDelay (n : Nat) : performAll (List.replicate n .tickDelay) s = .next (State.tickDelay^[n] s) := by
  induction n generalizing s with
  | zero => rfl
  | succ n ih => exact ih s.tickDelay

theorem State.iterate_tickDelay_dt_toNat (n : Nat) : (State.tickDelay^[n] s).dt.toNat = s.dt.toNat - n := by
  induction n with
  | zero => rfl
  | succ n ih => rw [Function.iterate_succ_apply', State.tickDelay_dt_toNat, ih, Nat.sub_sub]

end

/-- A key's index fits a byte, so it is stored as it is (R213). -/
theorem keyByte_toNat (k : Fin 16) : (BitVec.ofNat 8 k.val).toNat = k.val :=
  Nat.mod_eq_of_lt (k.isLt.trans (by decide))

/-! ### The statements -/

/-- Settles O38: the write of one register; `n` ticks subtract `n` from what it then reads. -/
theorem ldVxDtReadsTheTimer : Obligations.LdVxDtReadsTheTimer := by
  refine ⟨encodedAs_rowPattern (.ldVxDt 0), fun x s => ⟨_, rfl, rfl, fun k => s.advance.reg_setReg x k s.dt⟩,
    fun ticks x s => ⟨_, _, performAll_replicate_tickDelay s ticks, rfl, ?read⟩⟩
  case read => rw [State.reg_setReg_self, State.iterate_tickDelay_dt_toNat]

/-- Settles O40: the key named is the one `State.lowestKey` finds, and with none pressed it finds none. -/
theorem keyWaitStoresTheLowestKey : Obligations.KeyWaitStoresTheLowestKey := by
  refine ⟨encodedAs_rowPattern (.ldVxK 0), fun x k s hk hlow => ?pressed, fun x s h =>
    exec_ldVxK_of_noneHeld x (s.lowestKey_eq_none.mpr h)⟩
  case pressed =>
    refine ⟨_, exec_ldVxK_of_lowest x ((s.lowestKey_eq_some k).mpr ⟨hk, hlow⟩), rfl, ?_, fun j => s.advance.reg_setReg_of_ne _⟩
    rw [State.reg_setReg_self, keyByte_toNat]

/-- Settles O37: a value up to 15 names its key, whose cell decides the skip; above 15 it names none and the fault is taken. -/
theorem keySkipsTestOneKey : Obligations.KeySkipsTestOneKey := by
  refine ⟨encodedAs_rowPattern (.skp 0), encodedAs_rowPattern (.sknp 0), fun x k s h => ?key, fun x s h => ?noKey⟩
  case key =>
    have hk : keyOf (s.reg x) = some k := (keyOf_eq_some _ k).mpr h
    rw [exec_skp_of_key hk, exec_sknp_of_key hk, State.skipIf_eq, State.skipIf_eq]
    refine ⟨rfl, ?_⟩
    simp only [State.key, Bool.not_eq_true']
  case noKey =>
    have hk : keyOf (s.reg x) = none := (keyOf_eq_none _).mpr h
    exact ⟨exec_of_noKey (.inl rfl) hk, exec_of_noKey (.inr rfl) hk⟩

/-- Settles O39: neither load tests anything, so each answers the one state with the timer written. -/
theorem timersAreSet : Obligations.TimersAreSet :=
  ⟨encodedAs_rowPattern (.ldDtVx 0), encodedAs_rowPattern (.ldStVx 0), fun _ _ => ⟨rfl, rfl⟩⟩

/-- Settles O42: each tick answers in every state and counts its own timer down. -/
theorem ticksCountDownToZero : Obligations.TicksCountDownToZero :=
  fun s => ⟨⟨_, rfl, rfl, s.tickDelay_dt_toNat⟩, ⟨_, rfl, rfl, s.tickSound_st_toNat⟩⟩

end Sys2Proof.Machine
end

section
/-! PROOFS. Fatal conditions (R230 to R238): a record that is new after an instruction or a step is one the instruction, the fetch or the
decoder can raise; the words the dispatcher selects nothing for; a halted core under the operations of the host. -/

namespace Sys2Proof.Machine

/-! ### What a new record says of the instruction (R230, R234, R236) -/

section
variable {i : Instr} {s t : State} {code : FaultCode} {info : Nat}

/-- A record after an instruction was there before it, or is one the instruction raises from the state it ran in. -/
theorem Effect.record_eq {r : FaultRecord} (e : Effect s i t) (hr : t.fault = some r) :
    s.fault = some r ∨ ∃ code info, Raises s i code info ∧ r = ⟨code, s.pc, encode i, info⟩ := by
  rcases e.fault_eq with heq | ⟨code, info, hraise, rfl⟩
  · exact .inl (heq ▸ hr)
  · exact .inr ⟨code, info, hraise, (Option.some.inj hr).symm⟩

/-- A memory instruction raises nothing unless one of its addresses is out of range (R234). -/
theorem Raises.outOfRange {len : Nat} (h : Raises s i code info) (hl : dataLength i = some len) :
    len ≠ 0 ∧ memSize < s.index.toNat + len := by
  cases h with
  | stackOverflow | stackUnderflow => cases hl
  | addressFault hl' h0 hout => cases hl.symm.trans hl'; exact ⟨h0, hout⟩
  | keyIndexFault hi => obtain rfl | rfl := hi <;> cases hl

/-- No instruction but the four that access memory raises `AddressFault` (R234). -/
theorem Raises.accessesMemory_of_addressFault (h : Raises s i .addressFault info) : accessesMemory i = true := by
  cases h with
  | addressFault hl => rw [accessesMemory, hl]; rfl

end

/-! ### The statements about fault entry -/

/-- Settles O44: by where the step led; a fetch fault, an invalid word and an instruction's fatal condition each leave a record that
explains the state. -/
theorem faultsArePrecise : Obligations.FaultsArePrecise := by
  intro s t r hf h hr
  refine ⟨eq_faulted_of_step h hr, ?_⟩
  obtain ⟨-, ⟨a, ha, rfl⟩ | ⟨w, hw, hd, rfl⟩ | ⟨w, i, hw, hd, hexec⟩⟩ := step_cases h
  · cases hr
    exact ⟨rfl, .inl ⟨rfl, a, ha⟩, explains_of_fetch_error ha⟩
  · cases hr
    exact ⟨rfl, .inr hw, rfl, Nat.two_pow_pos 17, hw, hd, rfl⟩
  · obtain hold | ⟨code, info, hraise, rfl⟩ := (exec_effect hexec).record_eq hr
    · cases hf.symm.trans hold
    · exact ⟨rfl, .inr (encode_of_decode hd ▸ hw), hraise.explains hw hd⟩

/-- Settles O45: a running core had no record before, so the record is one the instruction raises, and there are four kinds of these. -/
theorem onlyTheListedInstructionsFault : Obligations.OnlyTheListedInstructionsFault := by
  refine ⟨fun i s t r hf h hr => ?_, rfl, rfl, rfl, rfl, rfl⟩
  obtain hold | ⟨code, info, hraise, rfl⟩ := (exec_effect h).record_eq hr
  · cases hf.symm.trans hold
  · cases hraise with
    | stackOverflow nnn hsp => exact .inl ⟨rfl, hsp, rfl, nnn, rfl⟩
    | stackUnderflow x hsp => exact .inr (.inl ⟨rfl, hsp, rfl, x, rfl⟩)
    | addressFault hl h0 hout => exact .inr (.inr (.inl ⟨rfl, rfl, _, hl, h0, hout⟩))
    | keyIndexFault hi hx => exact .inr (.inr (.inr ⟨rfl, _, hi, hx, rfl⟩))

/-- Settles O32: the fetch and the memory instructions by their bounds check; what an instruction in range, or of another kind, can raise
is no `AddressFault`. -/
theorem addressFaultExactlyOutOfRange : Obligations.AddressFaultExactlyOutOfRange := by
  refine ⟨fun s hf hp => ?fetch, fun i s len hl => ⟨fun ⟨h0, h⟩ => ?outOfRange, fun hin => ?inRange⟩, fun i s t ha h r hr hc => ?other⟩
  case fetch => exact step_of_fetch_error hf (State.fetch_of_gt (by omega))
  case outOfRange => exact exec_of_outOfRange hl ((firstBad_eq_some _ _ _).mpr ⟨h0, h, rfl⟩)
  case inRange =>
    obtain ⟨t, ht, e⟩ := exec_answers i s
    obtain heq | ⟨code, info, hraise, -⟩ := e.fault_eq
    · exact ⟨t, ht, heq⟩
    · exact absurd (hraise.outOfRange hl) hin
  case other =>
    obtain hold | ⟨code, info, hraise, rfl⟩ := (exec_effect h).record_eq hr
    · exact hold
    · subst hc
      exact absurd hraise.accessesMemory_of_addressFault (ha ▸ Bool.false_ne_true)

/-! ### The invalid words (R78, R231) -/

section
variable {w : Word}

theorem decode0_eq_none_iff : decode0 w = none ↔ kkField w ∉ [0xE0, 0xEE] := by
  unfold decode0
  split <;> simp_all

theorem decode8_eq_none_iff : decode8 w = none ↔ nBits w ∈ [0x8, 0x9, 0xA, 0xB, 0xC, 0xD, 0xF] := by
  have complement : ∀ k : Nibble, k ∈ [0x8, 0x9, 0xA, 0xB, 0xC, 0xD, 0xF] ↔
      k ∉ [0x0, 0x1, 0x2, 0x3, 0x4, 0x5, 0x6, 0x7, 0xE] := by decide
  rw [complement]
  unfold decode8
  split <;> simp_all

theorem decodeE_eq_none_iff : decodeE w = none ↔ kkField w ∉ [0x9E, 0xA1] := by
  unfold decodeE
  split <;> simp_all

theorem decodeF_eq_none_iff :
    decodeF w = none ↔ kkField w ∉ [0x07, 0x0A, 0x15, 0x18, 0x1E, 0x29, 0x33, 0x55, 0x65] := by
  unfold decodeF
  split <;> simp_all

/-- The dispatcher selects nothing for exactly the words R78 lists: only the four secondary selections can fail. -/
theorem select_eq_none_iff : select w = none ↔ InvalidWord w := by
  have sixteen_ops : opField w ∈ [0x0, 0x1, 0x2, 0x3, 0x4, 0x5, 0x6, 0x7, 0x8, 0x9, 0xA, 0xB, 0xC, 0xD, 0xE, 0xF] := by
    generalize opField w = o
    revert o
    decide
  rw [InvalidWord, ← decode0_eq_none_iff, ← decode8_eq_none_iff, ← decodeE_eq_none_iff, ← decodeF_eq_none_iff]
  unfold select
  -- Each arm fixes `op`; the catch-all arm is the one `sixteen_ops` rules out.
  split <;> simp_all

theorem invalidWord_iff_decode : InvalidWord w ↔ ∀ i, decode w ≠ .ok i := by
  rw [← select_eq_none_iff, Option.eq_none_iff_forall_ne_some]
  exact forall_congr' fun i => not_congr ⟨decode_of_select, select_of_decode⟩

end

/-- Settles O8: a word decodes to an instruction or not, and it does not exactly when R78 lists it. -/
theorem invalidWordsRaiseInvalidOpcode : Obligations.InvalidWordsRaiseInvalidOpcode := by
  refine ⟨fun w => invalidWord_iff_decode, fun s w hf hw => ⟨fun hbad => ?invalid, fun hgood => ?valid⟩⟩
  case invalid => exact step_of_decode_error hf hw (decode_of_select_none (select_eq_none_iff.mpr hbad))
  case valid =>
    obtain ⟨i, hi⟩ := Option.ne_none_iff_exists'.mp (mt select_eq_none_iff.mp hgood)
    have hd := decode_of_select hi
    exact ⟨i, hd, step_of_decode hf hw hd⟩

/-! ### A halted core (R106, R238) -/

section
variable {s t : State} {r : FaultRecord}

theorem step_of_halted (hr : s.fault = some r) : step s = .fault (.halted r) := by
  simp only [step, hr]

/-- The host's `Step` of a halted core changes nothing but the latch presented with it (R33, R106). -/
theorem perform_step_of_halted (keys : Keys) (hr : s.fault = some r) :
    perform (.step keys) s = .next (s.writeKeys keys, .stepped .halted) := by
  have hstep : step (s.writeKeys keys) = .fault (.halted r) := step_of_halted hr
  simp only [perform, State.hostStep, hstep]

/-- No operation of the host but `Reset` clears or replaces a record in `FAULT` (R238). -/
theorem perform_keeps_record {op : HostOp} {a : Response} (hr : s.fault = some r) (h : perform op s = .next (t, a)) :
    t.fault = some r ∨ op = .reset := by
  cases op with
  | reset => exact .inr rfl
  | step keys =>
    cases (perform_step_of_halted keys hr).symm.trans h
    exact .inl hr
  | loadImage img =>
    obtain ⟨hload, -⟩ := perform_loadImage_cases h
    obtain ⟨-, -, rfl⟩ := loadImage_cases hload
    exact .inl hr
  | tickDelay | tickSound | readFB | readDirty | clearDirty | readFault => cases h; exact .inl hr

end

/-- Settles O46: a step of a halted core stops before the fetch; the other operations do not look at `FAULT`, and `Reset` clears it. -/
theorem haltedUntilReset : Obligations.HaltedUntilReset := by
  intro s r hr
  refine ⟨fun keys => perform_step_of_halted keys hr, fun _ _ _ => perform_keeps_record hr, ⟨_, rfl, rfl⟩, rfl, rfl,
    fun _ => rfl, rfl, rfl, ?readFault⟩
  case readFault => rw [perform, hr]

end Sys2Proof.Machine
end

section
/-! PROOFS. Reset and boot (R270 to R274). Reset's memory reads as the font and, above it, as zero. `LoadImage` has three outcomes, by
whether the state is the one `Reset` leaves and whether the image fits; the one that loads differs from the state before in memory alone,
and boot is that outcome from the state `Reset` leaves. -/

namespace Sys2Proof.Machine

/-! ### The reset contents of memory (R270, R272) -/

theorem resetByte_eq_font_getD (a : Nat) : resetByte a = conventionalFont.getD a 0 := rfl

theorem resetByte_of_font_end_le {a : Nat} (h : 80 ≤ a) : resetByte a = 0 := by
  rw [resetByte_eq_font_getD]
  exact List.getD_eq_default _ _ h

/-- The font table starts at 0, so the lowest 80 bytes are its bytes in order (R272). -/
theorem map_resetByte_range_font : (List.range 80).map resetByte = conventionalFont := by
  have hlen : conventionalFont.length = 80 := rfl
  refine List.ext_getElem (by simp [hlen]) fun a _ ha => ?_
  simp [resetByte_eq_font_getD, ha]

/-! ### `Reset`, and the outcomes of `LoadImage` (R271, R273, R274) -/

theorem perform_reset (s : State) : perform .reset s = .next (s.resetOp, .done) := rfl

/-- `s` with an image copied verbatim from `PROG_BASE` on (R273). -/
def State.withImage (s : State) (img : List Byte) : State :=
  { s with mem := s.mem.writeList Config.machine.progBase img }

section
variable {s : State} {img : List Byte}

theorem perform_loadImage_of_fits (hs : s = s.resetOp) (h : 0x200 + img.length ≤ 4096) :
    perform (.loadImage img) s = .next (s.withImage img, .done) := by
  have hload : s.loadImage img = .next (s.withImage img) := by
    rw [State.loadImage, if_pos hs, if_neg (Nat.not_lt.mpr h), State.withImage]
  rw [perform, hload]

theorem perform_loadImage_of_too_long (hs : s = s.resetOp) (h : 4096 < 0x200 + img.length) :
    perform (.loadImage img) s = .refused (.imageTooLong img.length) := by
  have hload : s.loadImage img = .refused (.imageTooLong img.length) := by rw [State.loadImage, if_pos hs, if_pos h]
  rw [perform, hload]

theorem perform_loadImage_of_not_reset (hs : s ≠ s.resetOp) :
    perform (.loadImage img) s = .refused .loadAfterStart := by
  have hload : s.loadImage img = .refused .loadAfterStart := by rw [State.loadImage, if_neg hs]
  rw [perform, hload]

/-- Boot: `Reset` leaves the state in which an image that fits is loaded, from every state (R271, R273). -/
theorem performAll_reset_loadImage (s : State) (h : 0x200 + img.length ≤ 4096) :
    performAll [.reset, .loadImage img] s = .next (s.resetOp.withImage img) := by
  have hload : perform (.loadImage img) s.resetOp = .next (s.resetOp.withImage img, .done) := perform_loadImage_of_fits rfl h
  simp only [performAll, perform_reset, hload]

/-- The first fetch after boot reads the two bytes at `PROG_BASE`, the first the high byte (R53, R270). -/
theorem fetch_after_boot (s : State) (img : List Byte) :
    (s.resetOp.withImage img).fetch =
      .ok ((s.resetOp.withImage img).mem.read 0x200 ++ (s.resetOp.withImage img).mem.read 0x201) :=
  State.fetch_of_le (s := s.resetOp.withImage img) (by decide : (0x200 : Word).toNat ≤ 0xFFE)

end

/-! ### The statements -/

/-- Settles O50: the three outcomes; in the one that loads, the cells the image covers hold its bytes and every other cell is as before. -/
theorem loadImageCopiesOrRefuses : Obligations.LoadImageCopiesOrRefuses :=
  ⟨fun s _ hs h => ⟨_, perform_loadImage_of_fits hs h, rfl,
    fun _ hj => Memory.read_writeList_add s.mem 0x200 hj, fun _ ha => Memory.read_writeList_of_outside s.mem 0x200 ha⟩,
    fun _ _ => perform_loadImage_of_too_long, fun _ _ => perform_loadImage_of_not_reset⟩

/-- Settles O51: the first fetch reads the image's first two bytes; with no image it reads the zeros of reset, and 0x0000 is no
instruction. -/
theorem bootFetchesTheImage : Obligations.BootFetchesTheImage := by
  refine ⟨fun s b0 b1 rest h => ⟨_, performAll_reset_loadImage s h, rfl, rfl, ?image⟩,
    fun s => ⟨_, performAll_reset_loadImage s (by decide), ?empty⟩⟩
  case image =>
    have hread {j : Nat} (hj : j < (b0 :: b1 :: rest).length) := Memory.read_writeList_add s.resetOp.mem 0x200 hj
    rw [fetch_after_boot]
    exact congrArg Except.ok (congrArg₂ (· ++ ·) (hread (j := 0) (by simp)) (hread (j := 1) (by simp)))
  case empty =>
    have hzero {a : Nat} (ha : 80 ≤ a) : (s.resetOp.withImage []).mem.read a = 0 := resetByte_of_font_end_le ha
    have hword : (s.resetOp.withImage []).fetch = .ok 0x0000 := by
      rw [fetch_after_boot, hzero (by decide), hzero (by decide)]
      rfl
    exact step_of_decode_error rfl hword (decode_of_select_none rfl)

/-- Settles O48: memory reads as its reset contents, the font and zeros above it. -/
theorem resetValues : Obligations.ResetValues :=
  ⟨State.reset_reg, rfl, rfl, rfl, fun _ => Vector.getElem_replicate .., Grid.cell_blank, rfl, rfl, rfl, rfl,
    fun _ => Vector.getElem_replicate .., fun _ => resetByte_of_font_end_le, map_resetByte_range_font⟩

/-- Settles O49: `Reset` reads nothing of the state but the latch and the counter of draws. -/
theorem resetFromEveryState : Obligations.ResetFromEveryState := perform_reset

end Sys2Proof.Machine
end

section
/-! PROOFS. What follows what: a return after a call, a fetch after a store, a step after a word is placed, any number of steps at a
key-wait or of a halted core. Each reads the answer of the first as the state the next starts from. The statements that every instruction
answers and that the invariant holds at reset are read off lemmas that stand above. -/

namespace Sys2Proof.Machine

/-! ### Runs of steps (R106, R213) -/

/-- A run from a state that a step leaves as it is stays there. -/
theorem run_of_step_eq_self {s : State} (h : step s = .next s) (n : Nat) : Host.Core.run core n s = .next s := by
  induction n with
  | zero => rfl
  | succ n ih => rw [run_next core n s s h, ih]

/-- A step of a halted core stops with its record, and a running core always takes its step (R106). -/
theorem step_halts_or_answers (s : State) :
    (∃ r, s.fault = some r ∧ step s = .fault (.halted r)) ∨ (s.fault = none ∧ ∃ t, step s = .next t) := by
  cases hf : s.fault with
  | some r => exact .inl ⟨r, rfl, step_of_halted hf⟩
  | none => exact .inr ⟨rfl, step_answers hf⟩

theorem step_eq_halted_iff {s : State} {r : FaultRecord} : step s = .fault (.halted r) ↔ s.fault = some r := by
  refine ⟨fun h => ?_, step_of_halted⟩
  obtain ⟨q, hq, hstep⟩ | ⟨-, t, hstep⟩ := step_halts_or_answers s
  · cases hstep.symm.trans h
    exact hq
  · cases hstep.symm.trans h

theorem step_ne_refused (s : State) (r : Refusal) : step s ≠ .refused r := by
  intro h
  obtain ⟨q, -, hstep⟩ | ⟨-, t, hstep⟩ := step_halts_or_answers s
  · cases hstep.symm.trans h
  · cases hstep.symm.trans h

/-! ### A word given as the bits of a table row -/

theorem decodeBytes_bytesOfWord (w : Word) : decodeBytes (bytesOfWord w) = (decode w).map fun i => (i, []) := by
  rw [bytesOfWord, decodeBytes, wordOfBytes_bytesOfWord]
  cases decode w <;> rfl

theorem decode_of_decodeTableWord {nbits w : Nat} {i : Instr} (h : decodeTableWord nbits w = some i) :
    decode (wordOfBits nbits w) = .ok i := by
  rw [decodeTableWord, decodeBytes_bytesOfWord] at h
  cases hd : decode (wordOfBits nbits w) with
  | ok j => rw [hd] at h; cases h; rfl
  | error e => rw [hd] at h; cases h

/-! ### A return after a call -/

/-- The return pops the address the call pushed: of the call there remains the entry it wrote above the stack (R120, R122). -/
theorem exec_ret_of_called (nnn : Addr12) (x : Nibble) {s : State} (h : s.sp.val < 16) :
    exec (.ret x) { s with
      stack := s.stack.set s.sp.val (s.pc + 2), sp := ⟨s.sp.val + 1, by omega⟩, pc := addr16 nnn } =
    .next { s with stack := s.stack.set s.sp.val (s.pc + 2), pc := s.pc + 2 } := by
  rw [exec_ret_of_used x (Nat.succ_ne_zero _)]
  simp only [Nat.add_sub_cancel, Vector.getElem_set_self]

/-! ### The statements -/

/-- Settles O14: the return undoes the call in all but the entry of the stack the call wrote. -/
theorem callThenRetGoesOnAfterTheCall : Obligations.CallThenRetGoesOnAfterTheCall :=
  fun nnn x _ h => ⟨_, _, exec_call_of_free nnn h, exec_ret_of_called nnn x h, rfl,
    fun _ hk => Vector.getElem_set_ne h _ hk.symm⟩

/-- Settles O31: the store leaves V0 and V1 in the first two cells of its range, which are the two the next fetch reads. -/
theorem storeIsSeenByTheNextFetch : Obligations.StoreIsSeenByTheNextFetch := by
  intro x s hx hi h
  refine ⟨_, exec_ldMemVx_of_inRange (firstBad_succ_of_lt h), ?_⟩
  have stored {k : RegIdx} (hk : k.val ≤ x.val) := Memory.read_writeList_regsUpTo s.mem s.index.toNat (s := s) hk
  have hpc : (s.pc + 2).toNat ≤ 0xFFE := by rw [← hi]; omega
  rw [State.fetch_of_le hpc]
  simp only [State.advance_pc, ← hi]
  exact congrArg Except.ok (congrArg₂ (· ++ ·) (stored (k := 0) (Nat.zero_le _)) (stored (k := 1) hx))

/-- Settles O41: a step at the key-wait answers the state it started from, so a run of steps stays there. -/
theorem unsatisfiedKeyWaitNeverMoves : Obligations.UnsatisfiedKeyWaitNeverMoves := by
  intro n x w s hf hw hd hkeys
  have hnone : s.lowestKey = none := s.lowestKey_eq_none.mpr hkeys
  have hstep : step s = .next s := (step_of_decode hf hw hd).trans (exec_ldVxK_of_noneHeld x hnone)
  have hwait : s.waiting = true := s.waiting_iff.mpr ⟨w, x, hw, hd, hnone⟩
  exact ⟨run_of_step_eq_self hstep n, (report_of_noFault hstep hf).trans (if_pos hwait)⟩

/-- Settles O58: every instruction answers with one of the effects, and an effect changes `FAULT` only by recording a fatal condition. -/
theorem everyInstructionAnswers : Obligations.EveryInstructionAnswers := by
  intro i s
  obtain ⟨t, ht, e⟩ := exec_answers i s
  exact ⟨t, ht, e.fault_eq.imp_right fun ⟨code, info, _, h⟩ => ⟨code, info, h⟩⟩

/-- Settles O2: the placed word is the one fetched, `FAULT` is clear, and the table's bits decode as the word does. -/
theorem placedWordRunsNext : Obligations.PlacedWordRunsNext := by
  intro s w i hp hi
  obtain ⟨hfetch, hfault, -⟩ := s.fetch_placeWord (wordOfBits 16 w) hp
  exact step_of_decode hfault hfetch (decode_of_decodeTableWord hi)

/-- Settles O3: each clause is the decoder run on one fixed word. -/
theorem wordsDecodeAsEncodedInTheSpec : Obligations.WordsDecodeAsEncodedInTheSpec := by
  unfold Obligations.WordsDecodeAsEncodedInTheSpec
  decide

/-- Settles O47: a halted core stops at every step, and a running core always answers a next state. -/
theorem stepStopsExactlyWhenHalted : Obligations.StepStopsExactlyWhenHalted :=
  ⟨fun _ _ => step_eq_halted_iff, step_ne_refused, fun s r n hr => run_fault core n s (.halted r) (step_of_halted hr)⟩

/-- Settles O55: the state after reset is what the host's `Reset` leaves from it, and `Reset` gives the invariant from every state. -/
theorem invariantHoldsAtReset : Obligations.InvariantHoldsAtReset := reset_inv

end Sys2Proof.Machine
end
